-- ==== Sys2Proof/Word.lean ====
section
/-! DEFINITION. The word types of the ULID Base32 codec core: R6 (the fixed widths), R8 and R9 (every value is unsigned). -/

namespace Sys2Proof

/-- One octet: a lane, a symbol byte, a command byte (R12, R15). -/
abbrev Byte := BitVec 8

/-- A 5-bit field value, what one symbol stands for (R9, R52). -/
abbrev Sym5 := BitVec 5

/-- The request length, LEN_W = 32 bits, unsigned (R6, R15). -/
abbrev Len := BitVec 32

/-- The binary form as one unsigned 128-bit integer V (R9). -/
abbrev Ulid := BitVec 128

/-- N_LANES = 26 byte lanes, the width of request data and of response data (R6, R15, R17). -/
abbrev Lanes := Vector Byte 26

/-- 26 field values, F[0..25] or G[0..25] (R9, R54). -/
abbrev Fields := Vector Sym5 26

/-- All 26 lanes 0x00, the lanes of every error response (R83). -/
def Lanes.zero : Lanes := Vector.replicate 26 0#8

end Sys2Proof
end

