-- ==== Sys2Proof/Syntax.lean ====
section
/-! DEFINITION. The instructions of the core (R44, spec/opcode_table.json) and the host's notation for requests (R56, R57). -/

namespace Sys2Proof

/-- The operations of R44, one constructor per row of the opcode table. An operation has no operand bits in its command
byte: `len` and `data` are operands in the request register (R43, R58). -/
inductive Instr where
  /-- ENCODE, cmd 0x00: binary to text (R59). -/
  | encode
  /-- DECODE, cmd 0x01: text to binary (R67). -/
  | decode
  /-- VALID, cmd 0x02: checks whether a text is a well-formed ULID (R76). -/
  | valid
deriving DecidableEq, Repr

/-- One line of the host's request notation (R56), and the host-side pseudo-sequence GENERATE_TEXT (R57). A text is the
sequence of its octets. -/
inductive HostLine where
  /-- `ENCODE h0 … h15`. -/
  | encode (bytes : List Byte)
  /-- `DECODE "text"`. -/
  | decode (text : List Byte)
  /-- `VALID "text"`. -/
  | valid (text : List Byte)
  /-- `ENCODE.L n : h0 … h(m-1)`. -/
  | encodeL (n : Len) (bytes : List Byte)
  /-- `REQ c, n : h0 … h(m-1)`. -/
  | req (c : Byte) (n : Len) (bytes : List Byte)
  /-- `RESET`: rst = 1 for one rising edge. -/
  | reset
  /-- `GENERATE_TEXT t, r`: t a timestamp in milliseconds, r the random bytes. -/
  | generateText (t : Nat) (r : List Byte)
deriving DecidableEq, Repr

end Sys2Proof
end

