-- ==== Sys2Proof/Decode.lean ====
section
/-! DEFINITION. The command byte: its fields (R43), decoding by the table of R44 with the reserved values of R45 rejected by name, and the encoder. -/

namespace Sys2Proof

/-- Why a command byte selects no operation (R45). -/
inductive CmdReject where
  /-- `cmd[7:2]` is not zero. -/
  | reservedBits
  /-- `cmd[7:2]` is zero and `op = 3`, the command 0x03. -/
  | reservedOp
deriving DecidableEq, Repr

/-- `cmd[1:0]`, operation select (R43). -/
def cmdOp (cmd : Byte) : BitVec 2 := cmd.extractLsb' 0 2

/-- `cmd[7:2]`, reserved (R43). -/
def cmdRsv (cmd : Byte) : BitVec 6 := cmd.extractLsb' 2 6

/-- The operation a command byte selects (R43, R44): the reserved field must be zero, then `op` selects. Total on all 256
values; the 253 reserved ones (R45) are rejected by name. -/
def decodeCmd (cmd : Byte) : Except CmdReject Instr :=
  if cmdRsv cmd ≠ 0#6 then .error .reservedBits
  else if cmdOp cmd = 0#2 then .ok .encode
  else if cmdOp cmd = 1#2 then .ok .decode
  else if cmdOp cmd = 2#2 then .ok .valid
  else .error .reservedOp

/-- The command byte of an operation: the table of R44. -/
def encodeCmd : Instr → Byte
  | .encode => 0x00#8
  | .decode => 0x01#8
  | .valid => 0x02#8

/-- An instruction is the command byte alone (R58), so its bits numbered as the opcode table numbers them are the byte
itself. A word that the table gives more than eight bits is no instruction of this hardware. -/
def decodeTableWord (nbits w : Nat) : Option Instr :=
  if nbits ≤ 8 then (decodeCmd (BitVec.ofNat 8 (w % 2 ^ nbits))).toOption else none

end Sys2Proof
end

