-- ==== Sys2Proof/Machine/Tables.lean ====
section
/-! DEFINITION. The two read-only tables ENC_LUT (R21) and DEC_LUT (R22). They are constant: no operation, reset or port writes them (R27). -/

namespace Sys2Proof.Machine

open Sys2Proof

/-- The byte column of R21, entry 0 first: `0`-`9`, `A`-`H`, `J`, `K`, `M`, `N`, `P`-`T`, `V`-`Z`. -/
def encTable : Vector Byte 32 :=
  #v[0x30, 0x31, 0x32, 0x33, 0x34, 0x35, 0x36, 0x37,
     0x38, 0x39, 0x41, 0x42, 0x43, 0x44, 0x45, 0x46,
     0x47, 0x48, 0x4A, 0x4B, 0x4D, 0x4E, 0x50, 0x51,
     0x52, 0x53, 0x54, 0x56, 0x57, 0x58, 0x59, 0x5A]

/-- `ENC_LUT[v]`, the symbol LUT (R21), total on all 32 values (R60). -/
def encLut (v : Sym5) : Byte := encTable[v.toFin]

/-- The value whose symbol a byte is, if it is one of the 32 symbol bytes. -/
def symbolValue? (c : Byte) : Option (Fin 32) := (List.finRange 32).find? fun v => encLut (BitVec.ofFin v) == c

/-- `DEC_LUT[c]`, the inverse LUT (R22), total on all 256 bytes (R68): `(member, value)`. The entry of a symbol byte
`ENC_LUT[v]` is `(1, v)`, every other entry is `(0, 0)`. -/
def decLut (c : Byte) : Bool × Sym5 :=
  match symbolValue? c with
  | some v => (true, BitVec.ofFin v)
  | none => (false, 0#5)

/-- `IsMember(c) = DEC_LUT[c].member` (R77). -/
def isMember (c : Byte) : Bool := (decLut c).1

/-- The value field of `DEC_LUT[c]` (R22). -/
def symValue (c : Byte) : Sym5 := (decLut c).2

end Sys2Proof.Machine
end

