-- ==== Sys2Proof/Machine/Operands.lean ====
section
/-! DEFINITION. Operand assembly (R50, R51), the field extractor (R52) and the aligner (R54). -/

namespace Sys2Proof.Machine

open Sys2Proof

/-- The binary operand of ENCODE (R50, R32): `V = data[0] ‖ … ‖ data[15]`, lane 0 most significant. Lanes 16..25 take no
part. -/
def binaryOperand (d : Lanes) : Ulid :=
  d[0] ++ d[1] ++ d[2] ++ d[3] ++ d[4] ++ d[5] ++ d[6] ++ d[7] ++
  d[8] ++ d[9] ++ d[10] ++ d[11] ++ d[12] ++ d[13] ++ d[14] ++ d[15]

/-- The field extractor (R52): `F[0] = V[127:125]` widened to 5 bits (R60), `F[k] = V[129-5k : 125-5k]` for k = 1..25. -/
def field (v : Ulid) (k : Fin 26) : Sym5 :=
  if k.val = 0 then (v.extractLsb' 125 3).setWidth 5 else v.extractLsb' (125 - 5 * k.val) 5

/-- All 26 fields of `V` (R52). -/
def fields (v : Ulid) : Fields := Vector.ofFn (field v)

/-- The output symbols of ENCODE (R55, R60): lane k is `ENC_LUT[F[k]]`. -/
def symbolLanes (v : Ulid) : Lanes := Vector.ofFn fun k => encLut (field v k)

/-- The values a text's 26 symbols decode to (R51, R68): `G[k] = DEC_LUT[data[k]].value`. -/
def textValues (d : Lanes) : Fields := Vector.ofFn fun k : Fin 26 => symValue d[k]

/-- The aligner (R54, R70): `V' = G[0][2:0] ‖ G[1][4:0] ‖ … ‖ G[25][4:0]`. -/
def align (g : Fields) : Ulid :=
  g[0].extractLsb' 0 3 ++ g[1] ++ g[2] ++ g[3] ++ g[4] ++ g[5] ++ g[6] ++ g[7] ++ g[8] ++ g[9] ++ g[10] ++ g[11] ++ g[12] ++
  g[13] ++ g[14] ++ g[15] ++ g[16] ++ g[17] ++ g[18] ++ g[19] ++ g[20] ++ g[21] ++ g[22] ++ g[23] ++ g[24] ++ g[25]

/-- `B'[j] = V'[127-8j : 120-8j]` (R54), for j = 0..15. -/
def binaryByte (v : Ulid) (j : Nat) : Byte := v.extractLsb' (120 - 8 * j) 8

/-- The output lanes of DECODE (R55): the 16 bytes of `V'` in lanes 0..15, 0x00 in lanes 16..25. -/
def binaryLanes (v : Ulid) : Lanes := Vector.ofFn fun j : Fin 26 => if j.val < 16 then binaryByte v j.val else 0#8

end Sys2Proof.Machine
end

