-- ==== Sys2Proof/Config.lean ====
section
/-! DEFINITION. What an implementation of the core fixes and the spec leaves open: R6 and R106. -/

namespace Sys2Proof

/-- LATENCY - 1. The spec leaves LATENCY open (R6, D13, U4): a constant with no body, so that every claim holds for every
LATENCY (log 1). -/
opaque Config.extraLatency : Nat

/-- LATENCY of R6: the rising edges from acceptance to completion, an integer that is at least 1. -/
def Config.latency : Nat := Config.extraLatency + 1

end Sys2Proof
end

