-- ==== Sys2Proof/Machine/State.lean ====
section
/-! DEFINITION. The state of the core as plain data (10_state.md, R13 to R28), its ports (R16), its faults and refusals, and the state after reset. -/

namespace Sys2Proof.Machine

open Sys2Proof

/-- The outcome codes of R49, a 2-bit field by its four names (codes in `Status.code`). -/
inductive Status where
  | ok
  | invalidLength
  | invalidCharacter
  | illegalOp
deriving DecidableEq, Repr

/-- The transaction phase (R18). -/
inductive Phase where
  /-- No request is held. -/
  | idle
  /-- A request is held in `req` and its response is not yet presented. -/
  | pending
  /-- The response is in `rsp` and presented. -/
  | done
deriving DecidableEq, Repr

/-- A request, and the request register that holds the accepted one (R15, R43). -/
structure Request where
  cmd : Byte
  len : Len
  data : Lanes
deriving DecidableEq, Repr

/-- A response, and the response register (R17, R48). -/
structure Response where
  status : Status
  outLen : BitVec 5
  outData : Lanes
  verdict : Bool
deriving DecidableEq, Repr

/-- The input ports at one rising edge (R16), and whether the host reads the response outputs in the cycle that this edge
ends (the HOST's move ReadRsp of R107). `req` is req_cmd, req_len and req_data_0..25. -/
structure EdgeInput where
  rst : Bool
  reqValid : Bool
  req : Request
  rspReady : Bool
  readRsp : Bool
deriving DecidableEq, Repr

/-- The response ports (R16): rsp_status, rsp_len, rsp_data_0..25 and rsp_verdict. -/
structure RspPins where
  rspStatus : BitVec 2
  rspLen : BitVec 5
  rspData : Lanes
  rspVerdict : BitVec 1
deriving DecidableEq, Repr

/-- What the block drives (R16). `rsp` is none where the response ports hold no value for the host (R19). -/
structure OutPins where
  reqReady : Bool
  rspValid : Bool
  rsp : Option RspPins
deriving DecidableEq, Repr

/-- The whole machine. `phase`, `busy`, `req` and `rsp` are the block's registers (R94); the last four fields are what
the cycle rules and the host imply (INVENTORY.md, State). -/
structure State where
  /-- The transaction phase (R18). -/
  phase : Phase
  /-- The busy bit (R18, R28, R94). -/
  busy : Bool
  /-- The request register (R15). -/
  req : Request
  /-- The response register (R17). -/
  rsp : Response
  /-- Rising edges still to come before completion, in phase PENDING (R101; log 14). -/
  edgesLeft : Nat
  /-- The first reset after power-on has happened (R98, R104; log 7). -/
  wasReset : Bool
  /-- The request the host offers and that is not yet accepted (R100; log 6). -/
  offer : Option Request
  /-- What the host drives at the coming rising edges, the next one first (log 2). -/
  inputs : List EdgeInput
deriving DecidableEq, Repr

/-- Why the machine stops with a fault. Both are raised by the edge (`State.readFault`) when the host reads the response
outputs; both are safe, since the hardware would go on. -/
inductive Fault where
  /-- The host reads `rsp` while rsp_valid = 0 (R19, R104; log 4). Safe. -/
  | rspReadWhileNotValid
  /-- The host reads `rsp` before the first reset after power-on (R98, R104; log 7). Safe. -/
  | rspReadBeforeReset
deriving DecidableEq, Repr

/-- Why the model gives no next state. No instruction's meaning answers with one. -/
inductive Refusal where
  /-- An instruction that has no meaning yet, raised by `exec`; no arm raises it now. Safe. -/
  | notModelled (mnemonic : String)
  /-- The host changes or withdraws a request before it is accepted, raised by the edge: the host has no such move
  (R100, R104, U12; log 5). Safe. -/
  | requestChangedBeforeAcceptance
  /-- An edge without rst before the first reset after power-on, raised by the edge: the state is unspecified and the host
  must apply reset first (R98; log 7). Safe. -/
  | notYetReset
deriving DecidableEq, Repr

/-- What the request register holds where the spec gives it no value (R28): DESIGN CHOICE, log 3. -/
def Request.blank : Request := { cmd := 0#8, len := 0#32, data := Lanes.zero }

/-- What the response register holds where the spec gives it no value (R28): DESIGN CHOICE, log 3. No read can show it
(R19). -/
def Response.blank : Response := { status := .ok, outLen := 0#5, outData := Lanes.zero, verdict := false }

/-- The state after reset (R28): phase IDLE, busy 0 (so req_ready 1 and rsp_valid 0), `req` and `rsp` without a value
(log 3). The host has driven nothing yet. -/
def State.reset : State where
  phase := .idle
  busy := false
  req := Request.blank
  rsp := Response.blank
  edgesLeft := 0
  wasReset := true
  offer := none
  inputs := []

end Sys2Proof.Machine
end

