-- ==== Sys2Proof/Machine/Flags.lean ====
section
/-! DEFINITION. The flag-like outputs, status and verdict (R13, R17): the status codes (R49) and the conditions the operations test (R67, R76, R77). -/

namespace Sys2Proof.Machine

open Sys2Proof

/-- The 2-bit code of a status (R49). -/
def Status.code : Status → BitVec 2
  | .ok => 0#2
  | .invalidLength => 1#2
  | .invalidCharacter => 2#2
  | .illegalOp => 3#2

/-- `m[0] & m[1] & … & m[25]` (R67, R76): every lane is a member. -/
def allMembers (d : Lanes) : Bool := decide (∀ k : Fin 26, isMember d[k] = true)

/-- `G[0] <= 7` (R69, R77): the first symbol's value fits the 3-bit slot. -/
def firstSymbolFits (d : Lanes) : Bool := decide (symValue d[0] ≤ 7#5)

end Sys2Proof.Machine
end

