-- ==== Sys2Proof/Machine/Ops.lean ====
section
/-! DEFINITION. The shared operations: the `respond` and `raise` primitives (R10, R83), the ports (R16), the read of the response (R19) and the four moves of the handshake with reset (R95, R99, R101, R102). -/

namespace Sys2Proof.Machine

open Sys2Proof

/-- The response of a successful operation, the arguments of `respond(OK, out_len, out_data, verdict)` (R10). -/
def okResponse (outLen : BitVec 5) (outData : Lanes) (verdict : Bool) : Response :=
  { status := .ok, outLen := outLen, outData := outData, verdict := verdict }

/-- The form of every error response (R83): the code, `out_len = 0`, 26 lanes 0x00, verdict 0. -/
def errorResponse (code : Status) : Response :=
  { status := code, outLen := 0#5, outData := Lanes.zero, verdict := false }

/-- The `respond` primitive (R10): writes the response register and ends the operation, so the response is presented
(phase DONE, R18). It is the only writer of `rsp` outside reset (R17). -/
def State.respond (s : State) (p : Response) : State := { s with rsp := p, phase := .done }

/-- The `raise` primitive (R10): the error response of R83. An error is a response, never a trap (R88). -/
def State.raise (s : State) (code : Status) : State := s.respond (errorResponse code)

/-- `req_ready = NOT busy` (R16, R94). -/
def State.reqReady (s : State) : Bool := !s.busy

/-- `rsp_valid` is 1 exactly in phase DONE (R94). -/
def State.rspValid (s : State) : Bool := decide (s.phase = .done)

/-- The response ports, driven directly from `rsp` (R16). -/
def Response.pins (p : Response) : RspPins :=
  { rspStatus := p.status.code, rspLen := p.outLen, rspData := p.outData, rspVerdict := BitVec.ofBool p.verdict }

/-- What the host sees of the block (R16). The response holds a value for the host only in phase DONE and after the first
reset (R19, R98, R102). -/
def State.outputs (s : State) : OutPins :=
  { reqReady := s.reqReady
    rspValid := s.rspValid
    rsp := if s.wasReset && s.rspValid then some s.rsp.pins else none }

/-- The fault of a read of the response outputs, if it is one (R19, R104). -/
def State.readFault (s : State) : Option Fault :=
  if s.wasReset = false then some .rspReadBeforeReset
  else if s.rspValid = false then some .rspReadWhileNotValid
  else none

/-- The pins while the host makes no move: a raised request is held stable (R100), nothing else is driven. -/
def EdgeInput.rest (offer : Option Request) : EdgeInput :=
  { rst := false, reqValid := offer.isSome, req := offer.getD Request.blank, rspReady := false, readRsp := false }

/-- What the host drives at the next rising edge: the head of `inputs`, and where the list is used up, no move (log 2). -/
def State.nextInput (s : State) : EdgeInput :=
  match s.inputs with
  | [] => EdgeInput.rest s.offer
  | i :: _ => i

/-- The host has driven its pins for this edge. -/
def State.dropInput (s : State) : State := { s with inputs := s.inputs.tail }

/-- The host keeps a raised request: req_valid still 1 and every request field unchanged (R100). -/
def EdgeInput.keepsOffer (i : EdgeInput) : Option Request → Bool
  | none => true
  | some r => i.reqValid && decide (i.req = r)

/-- The request the host has raised and that this edge does not accept stays offered (R100). -/
def State.noteOffer (s : State) (i : EdgeInput) : State :=
  { s with offer := if i.reqValid then some i.req else none }

/-- Reset (R95, R96): every register takes its value of R28 and the transaction in flight is discarded. The tables are
constants and stay (R27). What the host drives next is the host's, and no request is offered any more (log 6). -/
def State.applyReset (s : State) : State := { State.reset with inputs := s.inputs }

/-- Acceptance (R99): the request ports are copied into `req`, the phase becomes PENDING with busy = 1, and completion is
`latency` edges away (R101). -/
def State.accept (s : State) (latency : Nat) (r : Request) : State :=
  { s with req := r, phase := .pending, busy := true, edgesLeft := latency, offer := none }

/-- An edge in phase PENDING counts toward completion (R101). -/
def State.countEdge (s : State) : State := { s with edgesLeft := s.edgesLeft - 1 }

/-- Take (R102): the phase becomes IDLE with busy = 0. `rsp` is not written (R17), but it holds no value for the host any
more (`State.outputs`, `State.readFault`). -/
def State.take (s : State) : State := { s with phase := .idle, busy := false }

end Sys2Proof.Machine
end

