-- ==== Sys2Proof/Machine/Decoder.lean ====
section
/-! DEFINITION. base32_decoder: the meaning of DECODE (R67). -/

namespace Sys2Proof.Machine

open Sys2Proof

/-- The response of DECODE to a request (R67), the checks in the order of R84. -/
def decodeResponse (r : Request) : Response :=
  if r.len ≠ 26#32 then errorResponse .invalidLength
  else if allMembers r.data = false then errorResponse .invalidCharacter
  else if firstSymbolFits r.data = false then errorResponse .invalidCharacter
  else okResponse 16#5 (binaryLanes (align (textValues r.data))) false

/-- DECODE (R67), run at its completion edge: responds to the request in `req`. -/
def execDecode (s : State) : Host.Outcome State Fault Refusal := .next (s.respond (decodeResponse s.req))

end Sys2Proof.Machine
end

