-- ==== Sys2Proof/Machine/Encoder.lean ====
section
/-! DEFINITION. base32_encoder: the meaning of ENCODE (R59). -/

namespace Sys2Proof.Machine

open Sys2Proof

/-- The response of ENCODE to a request (R59). -/
def encodeResponse (r : Request) : Response :=
  if r.len ≠ 16#32 then errorResponse .invalidLength
  else okResponse 26#5 (symbolLanes (binaryOperand r.data)) false

/-- ENCODE (R59), run at its completion edge: responds to the request in `req`. -/
def execEncode (s : State) : Host.Outcome State Fault Refusal := .next (s.respond (encodeResponse s.req))

end Sys2Proof.Machine
end

