-- ==== Sys2Proof/Machine/Validator.lean ====
section
/-! DEFINITION. symbol_validator: the meaning of VALID (R76). -/

namespace Sys2Proof.Machine

open Sys2Proof

/-- The response of VALID to a request (R76): always OK with no bytes (R78), the verdict by length, membership and the
first-symbol bound (R77, C1). -/
def validResponse (r : Request) : Response :=
  if r.len ≠ 26#32 then okResponse 0#5 Lanes.zero false
  else okResponse 0#5 Lanes.zero (allMembers r.data && firstSymbolFits r.data)

/-- VALID (R76), run at its completion edge: responds to the request in `req`. -/
def execValid (s : State) : Host.Outcome State Fault Refusal := .next (s.respond (validResponse s.req))

end Sys2Proof.Machine
end

