-- ==== Sys2Proof/Machine/Handshake.lean ====
section
/-! DEFINITION. One rising edge of clk (R94): the order in which reads, reset and the handshake rules R95 to R102 apply. -/

namespace Sys2Proof.Machine

open Sys2Proof

/-- Completion (R101): the command byte of `req` is decoded and its operation runs; a reserved command is answered with
ILLEGAL_OP (R45, R107). -/
def State.complete (s : State) : Host.Outcome State Fault Refusal :=
  match decodeCmd s.req.cmd with
  | .ok i => exec i s
  | .error _ => .next (s.raise .illegalOp)

/-- One rising edge with rst = 0 after the handshake's checks, by phase: acceptance (R99), completion after the last
counted edge (R101), take (R102), or nothing. -/
def State.handshake (latency : Nat) (i : EdgeInput) (s : State) : Host.Outcome State Fault Refusal :=
  match s.phase with
  | .idle => if i.reqValid && s.reqReady then .next (s.accept latency i.req) else .next (s.noteOffer i)
  | .pending =>
    if s.edgesLeft ≤ 1 then ((s.noteOffer i).countEdge).complete else .next ((s.noteOffer i).countEdge)
  | .done => if i.rspReady then .next ((s.noteOffer i).take) else .next (s.noteOffer i)

/-- One rising edge of clk with LATENCY as an argument (R6). A read of the response is judged on the outputs before the
edge (R19; log 9); reset overrides the handshake (R95); before the first reset there is no other edge (R98); a host that
changes an offered request has no move (R100). -/
def State.edge (latency : Nat) (i : EdgeInput) (s : State) : Host.Outcome State Fault Refusal :=
  match (if i.readRsp then s.readFault else none) with
  | some f => .fault f
  | none =>
    if i.rst then .next s.applyReset
    else if s.wasReset = false then .refused .notYetReset
    else if i.keepsOffer s.offer = false then .refused .requestChangedBeforeAcceptance
    else s.handshake latency i

/-- The state in which the very next edge completes the request whose command byte is `cmd`: phase PENDING with one edge
left, and a host that makes no move at that edge. -/
def State.pendingCmd (s : State) (cmd : Byte) : State :=
  { s with
    phase := .pending
    busy := true
    req := { s.req with cmd := cmd }
    edgesLeft := 1
    wasReset := true
    inputs := EdgeInput.rest s.offer :: s.inputs }

end Sys2Proof.Machine
end

