-- ==== Sys2Proof/Machine/Step.lean ====
section
/-! DEFINITION. step: one rising edge of clk with the implementation's LATENCY and the host's next pins (R94, R101). -/

namespace Sys2Proof.Machine

open Sys2Proof

/-- One rising edge of clk: the host drives its next pins, and the block's registers change by R95 to R102. -/
def step (s : State) : Host.Outcome State Fault Refusal := s.dropInput.edge Config.latency s.nextInput

/-- `s` with the instruction word in the request register as an accepted request whose completion edge comes next; `len`
and `data` are operands and stay (R58). No program is loaded on this hardware: the host issues each request (log 8). -/
def State.withFetchWord (s : State) (nbits w : Nat) : State := s.pendingCmd (BitVec.ofNat 8 (w % 2 ^ nbits))

end Sys2Proof.Machine
end

