-- ==== Sys2Proof/WellFormed.lean ====
section
/-! DEFINITION. Well-formed lines of the host's notation: R56 and R57. An `Instr` has no operand, so there is nothing to check in one. -/

namespace Sys2Proof

/-- Which lines the notation of R56 and R57 admits: 16 bytes for ENCODE, at most 26 for ENCODE.L and REQ (m ≤ 26), and for
GENERATE_TEXT the precondition t < 2^48 and exactly ten random bytes. DECODE and VALID take a text of any length. -/
def HostLine.wellFormed : HostLine → Bool
  | .encode bytes => bytes.length == 16
  | .decode _ => true
  | .valid _ => true
  | .encodeL _ bytes => decide (bytes.length ≤ 26)
  | .req _ _ bytes => decide (bytes.length ≤ 26)
  | .reset => true
  | .generateText t r => decide (t < 2 ^ 48) && r.length == 10

end Sys2Proof
end

