-- ==== Sys2Proof/Machine/HostSide.lean ====
section
/-! DEFINITION. The host's side of a request: its length and lanes (R46, R47), the notation (R56) and GENERATE_TEXT (R57). -/

namespace Sys2Proof.Machine

open Sys2Proof

/-- The length the host writes for an input of `n` octets (R46): an input of 2^32 octets or more is written as
0xFFFFFFFF. -/
def hostLen (n : Nat) : Len := if n < 2 ^ 32 then BitVec.ofNat 32 n else 0xFFFFFFFF#32

/-- The lanes the host writes (R47, R56): lane k holds octet k of the input, 0x00 where the input has none. Octets from 26
on are not sent. -/
def hostLanes (bytes : List Byte) : Lanes := Vector.ofFn fun k : Fin 26 => bytes.getD k.val 0#8

/-- The request for an input whose octets are `bytes` (R46, R47). -/
def hostRequest (cmd : Byte) (bytes : List Byte) : Request :=
  { cmd := cmd, len := hostLen bytes.length, data := hostLanes bytes }

/-- GENERATE_BIN (R57): the 48-bit timestamp, most significant byte first, then the random bytes. -/
def generateBin (t : Nat) (r : List Byte) : List Byte :=
  [BitVec.ofNat 8 (t / 2 ^ 40), BitVec.ofNat 8 (t / 2 ^ 32), BitVec.ofNat 8 (t / 2 ^ 24), BitVec.ofNat 8 (t / 2 ^ 16),
   BitVec.ofNat 8 (t / 2 ^ 8), BitVec.ofNat 8 t] ++ r

/-- The request a line of the notation writes (R56, R57). RESET writes none; an ill-formed line, GENERATE_TEXT with
t ≥ 2^48 among them, is refused by the host. -/
def hostLineRequest? (l : HostLine) : Option Request :=
  if l.wellFormed then
    match l with
    | .encode bytes => some (hostRequest 0x00#8 bytes)
    | .decode text => some (hostRequest 0x01#8 text)
    | .valid text => some (hostRequest 0x02#8 text)
    | .encodeL n bytes => some { cmd := 0x00#8, len := n, data := hostLanes bytes }
    | .req c n bytes => some { cmd := c, len := n, data := hostLanes bytes }
    | .reset => none
    | .generateText t r => some (hostRequest 0x00#8 (generateBin t r))
  else none

/-- The pins the host drives for a line of the notation (R56): a request with req_valid = 1, and for RESET rst = 1. -/
def hostLineDrive? (l : HostLine) : Option EdgeInput :=
  match l with
  | .reset => some { rst := true, reqValid := false, req := Request.blank, rspReady := false, readRsp := false }
  | _ => (hostLineRequest? l).map fun r => { rst := false, reqValid := true, req := r, rspReady := false, readRsp := false }

end Sys2Proof.Machine
end

