-- ==== Sys2Proof/Machine/Transaction.lean ====
section
/-! DEFINITION. The transaction-level model of R107: Codec, the step relation over (phase, faults), its runs with their fairness and their end, the moves a rising edge makes in it, and what the host has seen (R39). -/

namespace Sys2Proof.Machine

open Sys2Proof

/-- `Codec` (R107): a total function of the request alone (R29). -/
def codec (r : Request) : Response :=
  if r.cmd = 0x00#8 then encodeResponse r
  else if r.cmd = 0x01#8 then decodeResponse r
  else if r.cmd = 0x02#8 then validResponse r
  else errorResponse .illegalOp

/-- The two agents (R14). -/
inductive Agent where
  | host
  | codec
deriving DecidableEq, Repr

/-- The phase of R107, with the request or the response in it. -/
inductive TPhase where
  | idle
  | pending (r : Request)
  | done (p : Response)
deriving DecidableEq, Repr

/-- The state of R107: the phase and the faults recorded, the last one first. -/
structure TState where
  phase : TPhase
  faults : List Fault
deriving DecidableEq, Repr

/-- The steps of R107. -/
inductive TMove where
  | issue (r : Request)
  | complete
  | take
  | reset
  | readRsp
deriving DecidableEq, Repr

/-- Which agent makes a step (R107). -/
def TMove.agent : TMove → Agent
  | .issue _ => .host
  | .complete => .codec
  | .take => .host
  | .reset => .host
  | .readRsp => .host

/-- The step relation of R107, none where the step is not enabled. -/
def TState.move (t : TState) (m : TMove) : Option TState :=
  match m, t.phase with
  | .issue r, .idle => some { t with phase := .pending r }
  | .complete, .pending r => some { t with phase := .done (codec r) }
  | .take, .done _ => some { t with phase := .idle }
  | .reset, _ => some { t with phase := .idle }
  | .readRsp, .idle => some { t with faults := .rspReadWhileNotValid :: t.faults }
  | .readRsp, .pending _ => some { t with faults := .rspReadWhileNotValid :: t.faults }
  | _, _ => none

/-- Some steps of R107 in a row. -/
def TState.moves (t : TState) : List TMove → Option TState
  | [] => some t
  | m :: ms => (t.move m).bind fun t' => t'.moves ms

/-- The step relation has a step `m` from `t` (R107). -/
def TState.enabled (t : TState) (m : TMove) : Bool := (t.move m).isSome

/-- A run may end here: the phase is IDLE. In PENDING and in DONE a transaction is outstanding (R107). -/
def TState.final (t : TState) : Bool :=
  match t.phase with
  | .idle => true
  | .pending _ => false
  | .done _ => false

/-- The two ways a run can stop (R107). -/
inductive RunStop where
  /-- The host has stopped issuing with the phase IDLE: the run has ended. -/
  | final
  /-- The phase is PENDING or DONE: a transaction is outstanding and the run is not final. -/
  | outstanding
deriving DecidableEq, Repr

/-- How the run of the steps `ms` from `t` stops, none where a step of it is not enabled (R107). -/
def TState.stopOf (t : TState) (ms : List TMove) : Option RunStop :=
  (t.moves ms).map fun t' => if t'.final then .final else .outstanding

/-- An endless run: from each state at most one step to the next, and no step where time passes and nothing happens
(R107). -/
def IsTRun (σ : Nat → TState) (μ : Nat → List TMove) : Prop :=
  ∀ n, (μ n).length ≤ 1 ∧ (σ n).moves (μ n) = some (σ (n + 1))

/-- Weak fairness of a step (R107): where it stays enabled from some point on, it is made again and again. -/
def WeaklyFair (σ : Nat → TState) (μ : Nat → List TMove) (m : TMove) : Prop :=
  ∀ n, (∀ k, n ≤ k → (σ k).enabled m = true) → ∃ k, n ≤ k ∧ m ∈ μ k

/-- The transaction-level state a cycle-level state stands for. A run that has not stopped has recorded no fault (log 4). -/
def State.abs (s : State) : TState where
  phase := match s.phase with
    | .idle => .idle
    | .pending => .pending s.req
    | .done => .done s.rsp
  faults := []

/-- The steps of R107 that a rising edge makes: at most one. An idle edge, and an edge that only counts, makes none. -/
def State.edgeMoves (i : EdgeInput) (s : State) : List TMove :=
  if i.rst then [.reset]
  else match s.phase with
    | .idle => if i.reqValid && s.reqReady then [.issue i.req] else []
    | .pending => if s.edgesLeft ≤ 1 then [.complete] else []
    | .done => if i.rspReady then [.take] else []

/-- What the host has done and seen since the last reset, the oldest first: the requests accepted, and the responses taken
("host observes p", R107). -/
structure Tally where
  accepted : List Request
  taken : List Response
deriving DecidableEq, Repr

/-- The tally after one more edge from `s` (R39, R96). -/
def Tally.afterEdge (y : Tally) (i : EdgeInput) (s : State) : Tally :=
  match s.edgeMoves i with
  | [.issue r] => { y with accepted := y.accepted ++ [r] }
  | [.take] => { y with taken := y.taken ++ [s.rsp] }
  | [.reset] => { accepted := [], taken := [] }
  | _ => y

end Sys2Proof.Machine
end

