-- ==== Sys2Proof/Safety.lean ====
section
/-! DEFINITION. What counts as a legal host and a safe run, and the invariant of the machine. -/

namespace Sys2Proof.Machine

open Sys2Proof

/-- What the host drives at the next edge is a move it has: it reads the response only where it holds a value (R19), and
without rst it has reset the block before (R98) and keeps a raised request (R100). -/
def State.hostLegal (s : State) : Bool :=
  (!s.nextInput.readRsp || (s.wasReset && s.rspValid)) &&
  (s.nextInput.rst || (s.wasReset && s.nextInput.keepsOffer s.offer))

/-- A legal move of the host other than reset. -/
def State.hostQuiet (s : State) : Bool := s.hostLegal && !s.nextInput.rst

/-- `n` rising edges, stopping at the first fault or refusal. -/
def edges : Nat → State → Host.Outcome State Fault Refusal
  | 0, s => .next s
  | n + 1, s =>
    match step s with
    | .next t => edges n t
    | .fault f => .fault f
    | .refused r => .refused r

/-- `n` edges from `s` answer the state `t`. -/
def State.reaches (s : State) (n : Nat) (t : State) : Prop := edges n s = .next t

/-- The host makes only legal moves at the first `n` edges from `s`. -/
def State.legalFor (s : State) (n : Nat) : Prop := ∀ j < n, ∀ t, s.reaches j t → t.hostLegal = true

/-- The host makes only legal moves, and none of them a reset, at the first `n` edges from `s`. -/
def State.quietFor (s : State) (n : Nat) : Prop := ∀ j < n, ∀ t, s.reaches j t → t.hostQuiet = true

/-- A safe run: no fault and no refusal in the first `n` edges. -/
def State.safeFor (s : State) (n : Nat) : Prop := ∃ t, s.reaches n t

/-- The host has stopped issuing and takes what is presented, at the first `n` edges from `s`. -/
def State.drainsFor (s : State) (n : Nat) : Prop :=
  ∀ j < n, ∀ t, s.reaches j t → t.hostQuiet = true ∧ t.nextInput.reqValid = false ∧ t.nextInput.rspReady = true

/-- The transaction-level trace of the first `n` edges from `s` (R107): the steps the edges make, with the idle edges
forgotten. An edge that faults is the read that faults, and the trace stops there (log 4). -/
def State.trace (s : State) : Nat → List TMove
  | 0 => []
  | n + 1 =>
    match step s with
    | .next t => s.edgeMoves s.nextInput ++ t.trace n
    | .fault _ => [.readRsp]
    | .refused _ => []

/-- An endless run of rising edges. -/
def IsRun (s : Nat → State) : Prop := ∀ n, step (s n) = .next (s (n + 1))

/-- The tally of the first `n` edges from `s`, on top of `y` (R39). -/
def State.tally (s : State) (y : Tally) : Nat → Tally
  | 0 => y
  | n + 1 =>
    match step s with
    | .next t => t.tally (y.afterEdge s.nextInput s) n
    | _ => y

/-- The shape of a response (R17, R48, R83): `out_len` is 26, 16 or 0, lanes at or above it are 0x00, only VALID's form has
verdict 1, and an error has the form of R83. -/
abbrev Response.Shaped (p : Response) : Prop :=
  (p.outLen = 26#5 ∨ p.outLen = 16#5 ∨ p.outLen = 0#5) ∧
  (∀ k : Fin 26, p.outLen.toNat ≤ k.val → p.outData[k] = 0#8) ∧
  (p.verdict = true → p.status = .ok ∧ p.outLen = 0#5) ∧
  (p.status ≠ .ok → p = errorResponse p.status)

/-- Lanes 0..15 as one number, big-endian (R9, R32): the digits in base 256, lane 0 the most significant. -/
def bytesValue (d : Lanes) : Nat := Fin.foldl 16 (fun v k => v * 256 + (d[k.val]).toNat) 0

/-- 26 field values as one number (R52, R54): the digits in base 32, F[0] the most significant. -/
def fieldsValue (g : Fin 26 → Nat) : Nat := Fin.foldl 26 (fun v k => v * 32 + g k) 0

/-- Field k of a 128-bit number by division (R52): `(V >> (125 - 5k)) & (k == 0 ? 0x7 : 0x1F)`. -/
def fieldOf (v : Nat) (k : Fin 26) : Nat := v / 2 ^ (125 - 5 * k.val) % (if k.val = 0 then 8 else 32)

/-- Bytewise lexicographic order of two texts, the first symbol first (R65, D26). -/
def LexLess (n : Nat) (a b : Lanes) : Prop :=
  ∃ k : Fin 26, k.val < n ∧ (∀ j : Fin 26, j < k → a[j] = b[j]) ∧ a[k].toNat < b[k].toNat

/-- The invariant of every state a legal run reaches: the block has been reset; busy is 1 exactly outside IDLE (R18);
a pending request has between 1 and LATENCY edges to go and no other phase counts (R101); a presented response is
`Codec` of the request it answers (R101, R107); the response register keeps its shape (R17). -/
abbrev State.Inv (s : State) : Prop :=
  s.wasReset = true ∧
  s.busy = decide (s.phase ≠ .idle) ∧
  (s.phase = .pending → 1 ≤ s.edgesLeft ∧ s.edgesLeft ≤ Config.latency) ∧
  (s.phase ≠ .pending → s.edgesLeft = 0) ∧
  (s.phase = .done → s.rsp = codec s.req) ∧
  s.rsp.Shaped

end Sys2Proof.Machine
end

