-- ==== Sys2Proof/Certificates/Slice0/Obligations.lean ====
section
/-! DEFINITION. The statements for the provers, from the numbered rules of spec/. -/

open Sys2Proof Sys2Proof.Machine

/-! ### The two tables -/

/-- R21: the value-to-symbol table, by the runs `0-9`, `A-H`, `J`, `K`, `M`, `N`, `P-T`, `V-Z` of ASCII codes. -/
def Obligations.EncLutHoldsTheSymbolBytes : Prop :=
  ∀ v : Sym5,
    (encLut v).toNat =
      if v.toNat < 10 then 0x30 + v.toNat
      else if v.toNat < 18 then 0x41 + (v.toNat - 10)
      else if v.toNat < 20 then 0x4A + (v.toNat - 18)
      else if v.toNat < 22 then 0x4D + (v.toNat - 20)
      else if v.toNat < 27 then 0x50 + (v.toNat - 22)
      else 0x56 + (v.toNat - 27)

/-- R23: ENC_LUT is strictly increasing, it is the only strictly increasing map onto its 32 bytes, and value v has the
v-th smallest symbol byte (v symbol bytes are below it). -/
def Obligations.EncLutIsTheOnlyIncreasingOrder : Prop :=
  (∀ v w : Sym5, v < w → encLut v < encLut w) ∧
  (∀ f : Sym5 → Byte, (∀ v w : Sym5, v < w → f v < f w) → (∀ c : Byte, (∃ v, f v = c) ↔ ∃ v, encLut v = c) → f = encLut) ∧
  (∀ v : Sym5, ((List.finRange 32).filter fun w => encLut (BitVec.ofFin w) < encLut v).length = v.toNat)

/-- R24: DEC_LUT inverts ENC_LUT in both directions, and no two values share a symbol. -/
def Obligations.DecLutInvertsEncLut : Prop :=
  (∀ v : Sym5, decLut (encLut v) = (true, v)) ∧
  (∀ (c : Byte) (v : Sym5), decLut c = (true, v) → encLut v = c) ∧
  (∀ v w : Sym5, encLut v = encLut w → v = w)

/-- R22 and R68 with the ranges R22 lists: a byte outside the 32 is `(0, 0)`, I, L, O, U, every lowercase letter, 0x00 and every
byte from 0x80 on among them; the members are exactly the bytes of R21. -/
def Obligations.DecLutRejectsEveryOtherByte : Prop :=
  (∀ v : Sym5, decLut (encLut v) = (true, v)) ∧
  (∀ c : Byte, (∀ v : Sym5, c ≠ encLut v) → decLut c = (false, 0#5)) ∧
  (∀ c : Byte, (c.toNat < 0x30 ∨ (0x3A ≤ c.toNat ∧ c.toNat ≤ 0x40) ∨ c = 0x49#8 ∨ c = 0x4C#8 ∨ c = 0x4F#8 ∨ c = 0x55#8 ∨
      0x5B ≤ c.toNat) ↔ decLut c = (false, 0#5))

/-! ### Commands -/

/-- R44: the three command bytes, each operation selected only when all eight bits match; decode and encode agree in both
directions. -/
def Obligations.CommandByteSelectsItsOperation : Prop :=
  decodeCmd 0x00#8 = .ok .encode ∧ decodeCmd 0x01#8 = .ok .decode ∧ decodeCmd 0x02#8 = .ok .valid ∧
  (∀ i : Instr, decodeCmd (encodeCmd i) = .ok i) ∧
  (∀ (c : Byte) (i : Instr), decodeCmd c = .ok i → c = encodeCmd i)

/-- A few words of the opcode table and beside it, bit by bit. -/
def Obligations.SampleTableWordsDecode : Prop :=
  decodeTableWord 8 0b00000000 = some .encode ∧ decodeTableWord 8 0b00000001 = some .decode ∧
  decodeTableWord 8 0b00000010 = some .valid ∧ decodeTableWord 8 0b00000011 = none ∧
  decodeTableWord 8 0b00000100 = none ∧ decodeTableWord 8 0b10000010 = none

/-- R45: the completion edge of a reserved command (`op = 3`, or `rsv ≠ 0`) answers ILLEGAL_OP whatever `len` and `data`
hold, and nothing but the response and the phase changes; a command value is reserved exactly when it is none of the three
of R44 (253 of the 256). -/
def Obligations.ReservedCommandAnswersIllegalOp : Prop :=
  (∀ s : State, (cmdOp s.req.cmd = 3#2 ∨ cmdRsv s.req.cmd ≠ 0#6) →
    s.complete = .next { s with
      phase := .done
      rsp := { status := .illegalOp, outLen := 0#5, outData := Vector.replicate 26 0#8, verdict := false } }) ∧
  (∀ c : Byte, (cmdOp c = 3#2 ∨ cmdRsv c ≠ 0#6) ↔ c ≠ 0x00#8 ∧ c ≠ 0x01#8 ∧ c ≠ 0x02#8)

/-! ### Operand assembly, the field extractor and the aligner -/

/-- R50: `V = data[0] ‖ … ‖ data[15]` with lane 0 most significant, as a number; lanes 16..25 take no part. -/
def Obligations.BinaryOperandIsBigEndian : Prop :=
  (∀ d : Lanes, (binaryOperand d).toNat = bytesValue d) ∧
  (∀ d e : Lanes, (∀ k : Fin 26, k.val < 16 → d[k] = e[k]) → binaryOperand d = binaryOperand e)

/-- R52: every field is the slice the rule gives, as a shift and a mask, and the fields tile V with no gap and no
overlap. -/
def Obligations.FieldsTileTheValue : Prop :=
  (∀ (v : Ulid) (k : Fin 26), (field v k).toNat = fieldOf v.toNat k) ∧
  (∀ v : Ulid, v.toNat = fieldsValue fun k => (field v k).toNat)

/-- R53: the table of the fields by bytes, `B[j]` being lane j. -/
def Obligations.FieldsSitInTheirBytes : Prop :=
  ∀ b : Lanes,
    let v := binaryOperand b
    (field v 0).extractLsb' 0 3 = b[0].extractLsb' 5 3 ∧ (field v 0).extractLsb' 3 2 = 0#2 ∧
    field v 1 = b[0].extractLsb' 0 5 ∧
    field v 2 = b[1].extractLsb' 3 5 ∧
    field v 3 = b[1].extractLsb' 0 3 ++ b[2].extractLsb' 6 2 ∧
    field v 4 = b[2].extractLsb' 1 5 ∧
    field v 5 = b[2].extractLsb' 0 1 ++ b[3].extractLsb' 4 4 ∧
    field v 6 = b[3].extractLsb' 0 4 ++ b[4].extractLsb' 7 1 ∧
    field v 7 = b[4].extractLsb' 2 5 ∧
    field v 8 = b[4].extractLsb' 0 2 ++ b[5].extractLsb' 5 3 ∧
    field v 9 = b[5].extractLsb' 0 5 ∧
    field v 10 = b[6].extractLsb' 3 5 ∧
    field v 11 = b[6].extractLsb' 0 3 ++ b[7].extractLsb' 6 2 ∧
    field v 12 = b[7].extractLsb' 1 5 ∧
    field v 13 = b[7].extractLsb' 0 1 ++ b[8].extractLsb' 4 4 ∧
    field v 14 = b[8].extractLsb' 0 4 ++ b[9].extractLsb' 7 1 ∧
    field v 15 = b[9].extractLsb' 2 5 ∧
    field v 16 = b[9].extractLsb' 0 2 ++ b[10].extractLsb' 5 3 ∧
    field v 17 = b[10].extractLsb' 0 5 ∧
    field v 18 = b[11].extractLsb' 3 5 ∧
    field v 19 = b[11].extractLsb' 0 3 ++ b[12].extractLsb' 6 2 ∧
    field v 20 = b[12].extractLsb' 1 5 ∧
    field v 21 = b[12].extractLsb' 0 1 ++ b[13].extractLsb' 4 4 ∧
    field v 22 = b[13].extractLsb' 0 4 ++ b[14].extractLsb' 7 1 ∧
    field v 23 = b[14].extractLsb' 2 5 ∧
    field v 24 = b[14].extractLsb' 0 2 ++ b[15].extractLsb' 5 3 ∧
    field v 25 = b[15].extractLsb' 0 5

/-- R54: packing is the inverse of extraction, for values with `G[0]` in 0..7; the packed value is the concatenation, as a
number; its bytes are those of the rule's table; and a text that DECODE accepts has `G[0]` at most 7, so that no bit is dropped
(by the spec's own decision D7, log 10). -/
def Obligations.AlignerPacksTheFields : Prop :=
  (∀ v : Ulid, align (fields v) = v) ∧
  (∀ g : Fields, g[0] ≤ 7#5 → fields (align g) = g ∧ (align g).toNat = fieldsValue fun k => g[k].toNat) ∧
  (∀ g : Fields,
    let b := binaryByte (align g)
    b 0 = g[0].extractLsb' 0 3 ++ g[1] ∧
    b 1 = g[2] ++ g[3].extractLsb' 2 3 ∧
    b 2 = g[3].extractLsb' 0 2 ++ g[4] ++ g[5].extractLsb' 4 1 ∧
    b 3 = g[5].extractLsb' 0 4 ++ g[6].extractLsb' 1 4 ∧
    b 4 = g[6].extractLsb' 0 1 ++ g[7] ++ g[8].extractLsb' 3 2 ∧
    b 5 = g[8].extractLsb' 0 3 ++ g[9] ∧
    b 6 = g[10] ++ g[11].extractLsb' 2 3 ∧
    b 7 = g[11].extractLsb' 0 2 ++ g[12] ++ g[13].extractLsb' 4 1 ∧
    b 8 = g[13].extractLsb' 0 4 ++ g[14].extractLsb' 1 4 ∧
    b 9 = g[14].extractLsb' 0 1 ++ g[15] ++ g[16].extractLsb' 3 2 ∧
    b 10 = g[16].extractLsb' 0 3 ++ g[17] ∧
    b 11 = g[18] ++ g[19].extractLsb' 2 3 ∧
    b 12 = g[19].extractLsb' 0 2 ++ g[20] ++ g[21].extractLsb' 4 1 ∧
    b 13 = g[21].extractLsb' 0 4 ++ g[22].extractLsb' 1 4 ∧
    b 14 = g[22].extractLsb' 0 1 ++ g[23] ++ g[24].extractLsb' 3 2 ∧
    b 15 = g[24].extractLsb' 0 3 ++ g[25]) ∧
  (∀ s t : State, exec .decode s = .next t → t.rsp.status = .ok → (decLut s.req.data[0]).2 ≤ 7#5)

/-! ### ENCODE -/

/-- R59, R63, R64: command 0x00 is ENCODE, and ENCODE always answers a next state. With `len = 16` the response is OK with the 26 symbols of the fields
of V, by shift and mask; with any other length it is INVALID_LENGTH with no byte of output. Nothing but the response and the
phase changes. -/
def Obligations.EncodeAnswersItsSymbols : Prop :=
  decodeCmd 0x00#8 = .ok .encode ∧ ∀ s : State, ∃ t : State,
    exec .encode s = .next t ∧ t = { s with phase := .done, rsp := t.rsp } ∧ t.rsp.verdict = false ∧
    (s.req.len = 16#32 →
      t.rsp.status = .ok ∧ t.rsp.outLen = 26#5 ∧
      ∀ k : Fin 26, t.rsp.outData[k] = encLut (BitVec.ofNat 5 (fieldOf (bytesValue s.req.data) k))) ∧
    (s.req.len ≠ 16#32 →
      t.rsp.status = .invalidLength ∧ t.rsp.outLen = 0#5 ∧ ∀ k : Fin 26, t.rsp.outData[k] = 0#8)

/-- R61 and R62: every output symbol of a successful ENCODE is one of the 32, never I, L, O, U or a lowercase letter, and the
first is one of `0`-`7`. -/
def Obligations.EncodeOutputsOnlyAlphabetSymbols : Prop :=
  ∀ s : State, s.req.len = 16#32 → ∃ t : State,
    exec .encode s = .next t ∧
    (∀ k : Fin 26, (∃ v : Sym5, t.rsp.outData[k] = encLut v) ∧
      t.rsp.outData[k] ≠ 0x49#8 ∧ t.rsp.outData[k] ≠ 0x4C#8 ∧ t.rsp.outData[k] ≠ 0x4F#8 ∧ t.rsp.outData[k] ≠ 0x55#8 ∧
      ¬ (0x61 ≤ t.rsp.outData[k].toNat ∧ t.rsp.outData[k].toNat ≤ 0x7A)) ∧
    0x30 ≤ t.rsp.outData[0].toNat ∧ t.rsp.outData[0].toNat ≤ 0x37

/-- R65: ENCODE preserves order, the two texts compared bytewise from the first symbol. -/
def Obligations.EncodePreservesOrder : Prop :=
  ∀ s₁ s₂ : State, s₁.req.len = 16#32 → s₂.req.len = 16#32 → bytesValue s₁.req.data < bytesValue s₂.req.data →
    ∃ t₁ t₂ : State, exec .encode s₁ = .next t₁ ∧ exec .encode s₂ = .next t₂ ∧ LexLess 26 t₁.rsp.outData t₂.rsp.outData

/-- R66: symbols 0..9 depend only on V[127:80] and symbols 10..25 only on V[79:0], and a smaller timestamp has a
lexicographically smaller 10-symbol prefix, whatever the random bytes are. -/
def Obligations.TimestampOrdersThePrefix : Prop :=
  ∀ s₁ s₂ : State, s₁.req.len = 16#32 → s₂.req.len = 16#32 →
    ∃ t₁ t₂ : State, exec .encode s₁ = .next t₁ ∧ exec .encode s₂ = .next t₂ ∧
      (bytesValue s₁.req.data / 2 ^ 80 = bytesValue s₂.req.data / 2 ^ 80 →
        ∀ k : Fin 26, k.val < 10 → t₁.rsp.outData[k] = t₂.rsp.outData[k]) ∧
      (bytesValue s₁.req.data % 2 ^ 80 = bytesValue s₂.req.data % 2 ^ 80 →
        ∀ k : Fin 26, 10 ≤ k.val → t₁.rsp.outData[k] = t₂.rsp.outData[k]) ∧
      (bytesValue s₁.req.data / 2 ^ 80 < bytesValue s₂.req.data / 2 ^ 80 → LexLess 10 t₁.rsp.outData t₂.rsp.outData)

/-! ### DECODE -/

/-- R67, R69, R72: command 0x01 is DECODE, and DECODE always answers a next state, with the checks in the order length, membership, first symbol. A text
it accepts gives the 16 bytes of the packed value; every other gives the error form. Nothing but the response and the phase
changes. The first-symbol clause is the spec's own decision D7 (log 10). -/
def Obligations.DecodeAnswersItsBytes : Prop :=
  decodeCmd 0x01#8 = .ok .decode ∧ ∀ s : State, ∃ t : State,
    exec .decode s = .next t ∧ t = { s with phase := .done, rsp := t.rsp } ∧ t.rsp.verdict = false ∧
    (s.req.len ≠ 26#32 → t.rsp.status = .invalidLength) ∧
    (s.req.len = 26#32 → (∃ k : Fin 26, (decLut s.req.data[k]).1 = false) → t.rsp.status = .invalidCharacter) ∧
    (s.req.len = 26#32 → 7#5 < (decLut s.req.data[0]).2 → t.rsp.status = .invalidCharacter) ∧
    (s.req.len = 26#32 → (∀ k : Fin 26, (decLut s.req.data[k]).1 = true) → (decLut s.req.data[0]).2 ≤ 7#5 →
      t.rsp.status = .ok ∧ t.rsp.outLen = 16#5 ∧
      (∀ j : Fin 26, j.val < 16 →
        t.rsp.outData[j].toNat =
          (fieldsValue fun k => (decLut s.req.data[k]).2.toNat) / 2 ^ (120 - 8 * j.val) % 256) ∧
      ∀ j : Fin 26, 16 ≤ j.val → t.rsp.outData[j] = 0#8) ∧
    (t.rsp.status ≠ .ok → t.rsp.outLen = 0#5 ∧ ∀ j : Fin 26, t.rsp.outData[j] = 0#8)

/-- R71: a failed DECODE returns no byte, and its response is the same whatever the failing input was, apart from the
status. -/
def Obligations.FailedDecodeShowsNothingOfItsInput : Prop :=
  ∀ s₁ s₂ : State, ∃ t₁ t₂ : State, exec .decode s₁ = .next t₁ ∧ exec .decode s₂ = .next t₂ ∧
    (t₁.rsp.status ≠ .ok → t₁.rsp.outLen = 0#5 ∧ (∀ j : Fin 26, t₁.rsp.outData[j] = 0#8) ∧ t₁.rsp.verdict = false) ∧
    (t₁.rsp.status ≠ .ok → t₂.rsp.status ≠ .ok → { t₁.rsp with status := t₂.rsp.status } = t₂.rsp)

/-- R73: for every 16 bytes, ENCODE and then DECODE of its 26 output symbols gives OK and the bytes. -/
def Obligations.DecodeOfEncodeIsTheBytes : Prop :=
  ∀ s₁ : State, s₁.req.len = 16#32 → ∃ t₁ : State, exec .encode s₁ = .next t₁ ∧
    ∀ s₂ : State, s₂.req.len = 26#32 → s₂.req.data = t₁.rsp.outData →
      ∃ t₂ : State, exec .decode s₂ = .next t₂ ∧ t₂.rsp.status = .ok ∧
        ∀ j : Fin 26, j.val < 16 → t₂.rsp.outData[j] = s₁.req.data[j]

/-- R74: for every 26-octet text that DECODE accepts, ENCODE of the 16 output bytes gives OK and the text again. -/
def Obligations.EncodeOfDecodeIsTheText : Prop :=
  ∀ s₁ : State, s₁.req.len = 26#32 → ∃ t₁ : State, exec .decode s₁ = .next t₁ ∧
    (t₁.rsp.status = .ok →
      ∀ s₂ : State, s₂.req.len = 16#32 → (∀ j : Fin 26, j.val < 16 → s₂.req.data[j] = t₁.rsp.outData[j]) →
        ∃ t₂ : State, exec .encode s₂ = .next t₂ ∧ t₂.rsp.status = .ok ∧ t₂.rsp.outLen = 26#5 ∧
          t₂.rsp.outData = s₁.req.data)

/-- R75: DECODE is injective on the texts it accepts, and there is one accepted text for each 16-byte value, 2^128 in
all. -/
def Obligations.AcceptedTextsMatchTheValuesOneToOne : Prop :=
  (∀ s₁ s₂ : State, ∃ t₁ t₂ : State, exec .decode s₁ = .next t₁ ∧ exec .decode s₂ = .next t₂ ∧
    (t₁.rsp.status = .ok → t₂.rsp.status = .ok → t₁.rsp.outData = t₂.rsp.outData → s₁.req.data = s₂.req.data)) ∧
  (∀ b : Vector Byte 16, ∃ d : Lanes, ∀ s : State, s.req.len = 26#32 → s.req.data = d →
    ∃ t : State, exec .decode s = .next t ∧ t.rsp.status = .ok ∧ ∀ j : Fin 16, t.rsp.outData[j.val] = b[j]) ∧
  Nat.card { d : Lanes // (codec { cmd := 0x01#8, len := 26#32, data := d }).status = .ok } = 8 * 32 ^ 25

/-! ### VALID -/

/-- R76, R78, R81: command 0x02 is VALID, and VALID always answers a next state with OK, no bytes, and verdict 1 exactly for a length of 26, all lanes
members and the first value at most 7. Nothing but the response and the phase changes. -/
def Obligations.ValidAnswersItsVerdict : Prop :=
  decodeCmd 0x02#8 = .ok .valid ∧ ∀ s : State, ∃ t : State,
    exec .valid s = .next t ∧ t = { s with phase := .done, rsp := t.rsp } ∧
    t.rsp.status = .ok ∧ t.rsp.outLen = 0#5 ∧ (∀ k : Fin 26, t.rsp.outData[k] = 0#8) ∧
    (t.rsp.verdict = true ↔
      s.req.len = 26#32 ∧ (∀ k : Fin 26, (decLut s.req.data[k]).1 = true) ∧ (decLut s.req.data[0]).2 ≤ 7#5)

/-- R77: membership is exactly the 32 bytes of R21, and for `len = 26` membership of the first lane together with the bound is
`data[0]` in 0x30..0x37, so the verdict is that and membership of the other lanes. -/
def Obligations.FirstSymbolIsADigitUpToSeven : Prop :=
  (∀ c : Byte, isMember c = true ↔ ∃ v : Sym5, c = encLut v) ∧
  (∀ s : State, s.req.len = 26#32 → ∃ t : State, exec .valid s = .next t ∧
    ((isMember s.req.data[0] = true ∧ (decLut s.req.data[0]).2 ≤ 7#5) ↔
      (0x30 ≤ s.req.data[0].toNat ∧ s.req.data[0].toNat ≤ 0x37)) ∧
    (t.rsp.verdict = true ↔
      (0x30 ≤ s.req.data[0].toNat ∧ s.req.data[0].toNat ≤ 0x37) ∧ ∀ k : Fin 26, isMember s.req.data[k] = true))

/-- R79: for every request content, VALID gives verdict 1 if and only if DECODE gives OK. -/
def Obligations.ValidExactlyWhenDecodeSucceeds : Prop :=
  ∀ s₁ s₂ : State, s₁.req.len = s₂.req.len → s₁.req.data = s₂.req.data →
    ∃ t₁ t₂ : State, exec .valid s₁ = .next t₁ ∧ exec .decode s₂ = .next t₂ ∧
      (t₁.rsp.verdict = true ↔ t₂.rsp.status = .ok)

/-! ### Errors and responses -/

/-- R82: the table of outcomes by command, with every cause of every code; no other cause gives it; and an error records
nothing beside its code, so that two requests with one error code have one response. The overflow clause is the spec's own
decision D7 (log 10). -/
def Obligations.OutcomesHaveTheirCauses : Prop :=
  (∀ r : Request,
    ((codec r).status = .illegalOp ↔ r.cmd ≠ 0x00#8 ∧ r.cmd ≠ 0x01#8 ∧ r.cmd ≠ 0x02#8) ∧
    ((codec r).status = .invalidLength ↔ (r.cmd = 0x00#8 ∧ r.len ≠ 16#32) ∨ (r.cmd = 0x01#8 ∧ r.len ≠ 26#32)) ∧
    ((codec r).status = .invalidCharacter ↔ r.cmd = 0x01#8 ∧ r.len = 26#32 ∧
      ((∃ k : Fin 26, (decLut r.data[k]).1 = false) ∨
        ((∀ k : Fin 26, (decLut r.data[k]).1 = true) ∧ 7#5 < (decLut r.data[0]).2))) ∧
    ((codec r).status.code = 0#2 ↔ (codec r).status = .ok) ∧ ((codec r).status.code = 1#2 ↔ (codec r).status = .invalidLength) ∧
    ((codec r).status.code = 2#2 ↔ (codec r).status = .invalidCharacter) ∧
    ((codec r).status.code = 3#2 ↔ (codec r).status = .illegalOp)) ∧
  (∀ r q : Request, (codec r).status ≠ .ok → (codec r).status = (codec q).status → codec r = codec q)

/-- R83: every error response has `out_len = 0`, all lanes 0x00 and verdict 0, and apart from the status no field of it
depends on the request. -/
def Obligations.ErrorResponsesHaveOneForm : Prop :=
  ∀ r : Request, (codec r).status ≠ .ok →
    (codec r).outLen = 0#5 ∧ (∀ k : Fin 26, (codec r).outData[k] = 0#8) ∧ (codec r).verdict = false ∧
    ∀ r' : Request, (codec r').status ≠ .ok → { codec r with status := (codec r').status } = codec r'

/-- R84: the first cause that applies, in the order of the rule; the lanes are not examined where the length is wrong, and
nothing but the command where it is reserved. -/
def Obligations.FirstCauseIsReported : Prop :=
  (∀ r : Request, r.cmd ∉ [0x00#8, 0x01#8, 0x02#8] → (codec r).status = .illegalOp) ∧
  (∀ r : Request, (r.cmd = 0x00#8 ∧ r.len ≠ 16#32) ∨ (r.cmd = 0x01#8 ∧ r.len ≠ 26#32) → (codec r).status = .invalidLength) ∧
  (∀ r : Request, r.cmd = 0x01#8 → r.len = 26#32 → (∃ k : Fin 26, (decLut r.data[k]).1 = false) →
    (codec r).status = .invalidCharacter) ∧
  (∀ r : Request, r.cmd = 0x01#8 → r.len = 26#32 → (∀ k : Fin 26, (decLut r.data[k]).1 = true) →
    7#5 < (decLut r.data[0]).2 → (codec r).status = .invalidCharacter)

/-- R36: ENCODE reads lanes 0..15 only, DECODE and VALID lanes 0..25, and none reads a lane where the length is not the one it
requires; a successful ENCODE has 26 output lanes, a successful DECODE 16, VALID none. -/
def Obligations.OperationsReadOnlyTheirLanes : Prop :=
  ∀ (i : Instr) (s₁ s₂ : State), s₁.req.len = s₂.req.len →
    (s₁.req.len = (if i = .encode then 16#32 else 26#32) →
      ∀ k : Fin 26, (i = .encode → k.val < 16) → s₁.req.data[k] = s₂.req.data[k]) →
    ∃ t₁ t₂ : State, exec i s₁ = .next t₁ ∧ exec i s₂ = .next t₂ ∧ t₁.rsp = t₂.rsp ∧
      (t₁.rsp.status = .ok → t₁.rsp.outLen = match i with | .encode => 26#5 | .decode => 16#5 | .valid => 0#5)

/-- R29: at the completion edge the response depends only on the request, whatever else the two states hold. -/
def Obligations.ResponseDependsOnlyOnTheRequest : Prop :=
  ∀ s₁ s₂ : State, s₁.req = s₂.req → ∃ t₁ t₂ : State, s₁.complete = .next t₁ ∧ s₂.complete = .next t₂ ∧ t₁.rsp = t₂.rsp ∧
    t₁.rsp = codec s₁.req

/-- R17: `out_len` is 26 after a successful ENCODE, 16 after a successful DECODE and 0 otherwise, every lane at or above it is
0x00, and the verdict is 0 for every operation but VALID. -/
def Obligations.ResponseFieldsFitTheirOperation : Prop :=
  ∀ r : Request,
    (codec r).outLen =
      (if r.cmd = 0x00#8 ∧ (codec r).status = .ok then 26#5 else if r.cmd = 0x01#8 ∧ (codec r).status = .ok then 16#5 else 0#5) ∧
    (∀ k : Fin 26, (codec r).outLen.toNat ≤ k.val → (codec r).outData[k] = 0#8) ∧
    ((codec r).verdict = true → r.cmd = 0x02#8)

/-- Frame of ENCODE, DECODE and VALID (R38, R13): they write `rsp` and move the phase, and leave everything else. -/
def Obligations.OperationsWriteOnlyTheResponse : Prop :=
  ∀ (i : Instr) (s t : State), exec i s = .next t →
    t.phase = .done ∧ t.busy = s.busy ∧ t.req = s.req ∧ t.edgesLeft = s.edgesLeft ∧ t.wasReset = s.wasReset ∧
    t.offer = s.offer ∧ t.inputs = s.inputs

/-! ### Reset and the handshake -/

/-- R28: after reset the phase is IDLE, `busy = 0`, `req_ready = 1`, `rsp_valid = 0`, the response holds no value for the
host and reading it is a fault. The stored words of `req` and `rsp` are the model's choice (log 3) and not stated. -/
def Obligations.ResetLeavesTheBlockIdle : Prop :=
  State.reset.phase = .idle ∧ State.reset.busy = false ∧ State.reset.reqReady = true ∧ State.reset.rspValid = false ∧
  State.reset.outputs.rsp = none ∧ State.reset.readFault = some .rspReadWhileNotValid

/-- R95, R96: at an edge with rst = 1, from any state and whatever else the host drives (a read that is no fault apart), the
phase becomes IDLE with `busy = 0` and `rsp_valid = 0`, no edge is left to count, the block counts as reset, no request stands
as offered (the model's reading, log 6), the response holds no value for the host, a request offered is not accepted and a
response presented is not taken (the edge makes the step Reset of R107 and no other). A second reset edge has the same effect,
which for the words of `req` and `rsp` is the model's form (log 3), as is that a read of a presented response at the edge is no
fault (log 9). The tables are constants. -/
def Obligations.ResetEdgeClearsEverything : Prop :=
  ∀ s : State, s.nextInput.rst = true → (s.nextInput.readRsp = true → s.readFault = none) →
    ∃ t : State, step s = .next t ∧ t.phase = .idle ∧ t.busy = false ∧ t.rspValid = false ∧ t.reqReady = true ∧
      t.offer = none ∧ t.edgesLeft = 0 ∧ t.wasReset = true ∧
      t.outputs.rsp = none ∧ t.inputs = s.inputs.tail ∧ s.edgeMoves s.nextInput = [.reset] ∧
      (t.nextInput.rst = true → t.nextInput.readRsp = false →
        ∃ u : State, step t = .next u ∧ u = { t with inputs := t.inputs.tail })

/-- R99: at an edge with rst = 0, `req_valid = 1` and `req_ready = 1` in phase IDLE the request ports are copied into `req`
and the phase becomes PENDING with `busy = 1`, and the host's duty of R100 for that request ends; at any other edge without reset `req` does not change. -/
def Obligations.AcceptanceCopiesTheRequest : Prop :=
  (∀ s : State, s.hostQuiet = true → s.phase = .idle → s.reqReady = true → s.nextInput.reqValid = true →
    ∃ t : State, step s = .next t ∧ t.req = s.nextInput.req ∧ t.phase = .pending ∧ t.busy = true ∧
      t.rsp = s.rsp ∧ t.edgesLeft = Config.latency ∧ t.offer = none) ∧
  (∀ s t : State, step s = .next t → s.nextInput.rst = false →
    ¬ (s.phase = .idle ∧ s.reqReady = true ∧ s.nextInput.reqValid = true) → t.req = s.req)

/-- When the command byte of the accepted request decodes to an operation, the completion edge is exec of it, on the state
with the host's pins consumed, the standing offer noted and the last edge counted (R101, R107). -/
def Obligations.CompletionRunsTheDecodedOperation : Prop :=
  ∀ (s : State) (i : Instr), s.hostQuiet = true → s.phase = .pending → s.edgesLeft ≤ 1 → decodeCmd s.req.cmd = .ok i →
    step s = exec i { s with
      inputs := s.inputs.tail
      offer := if s.nextInput.reqValid then some s.nextInput.req else none
      edgesLeft := s.edgesLeft - 1 }

/-- R101, the edges one by one: the last counted edge writes `rsp ← Codec(req)` and moves to DONE, all of `rsp` at that edge;
an earlier edge in PENDING presents nothing and notes the standing offer (R100); and no other edge without reset writes `rsp` (R17). -/
def Obligations.CompletionPresentsCodec : Prop :=
  (∀ s : State, s.hostQuiet = true → s.phase = .pending → s.edgesLeft = 1 →
    ∃ t : State, step s = .next t ∧ t.rsp = codec s.req ∧ t.phase = .done ∧ t.rspValid = true ∧ t.req = s.req ∧
      t.busy = s.busy) ∧
  (∀ s : State, s.hostQuiet = true → s.phase = .pending → 1 < s.edgesLeft →
    ∃ t : State, step s = .next t ∧ t.phase = .pending ∧ t.edgesLeft = s.edgesLeft - 1 ∧ t.rsp = s.rsp ∧ t.req = s.req ∧
      t.busy = s.busy ∧ t.offer = if s.nextInput.reqValid then some s.nextInput.req else none) ∧
  (∀ s t : State, step s = .next t → s.nextInput.rst = false → ¬ (s.phase = .pending ∧ s.edgesLeft ≤ 1) → t.rsp = s.rsp)

/-- R102: at an edge with rst = 0, `rsp_valid = 1` and `rsp_ready = 1` the phase becomes IDLE with `busy = 0` and
`rsp_valid = 0`; after that edge the response holds no value for the host. A request offered at that edge is not accepted by it
and stands as offered (R100, R103). -/
def Obligations.TakeFreesTheBlock : Prop :=
  ∀ s : State, s.hostQuiet = true → s.rspValid = true → s.nextInput.rspReady = true →
    ∃ t : State, step s = .next t ∧ t.phase = .idle ∧ t.busy = false ∧ t.reqReady = true ∧ t.rspValid = false ∧
      t.outputs.rsp = none ∧ s.edgeMoves s.nextInput = [.take] ∧ t.readFault = some .rspReadWhileNotValid ∧
      t.offer = if s.nextInput.reqValid then some s.nextInput.req else none

/-- R19 and R104: a step faults exactly when the host reads the response while `rsp_valid = 0`, or before the first reset;
while `rsp_valid = 1` after a reset the host sees the response. That the step stops with the fault is the model's choice (log 4),
and so is that the read is judged on the outputs before the edge, so that a read at a take or reset edge of a presented response
is no fault (log 9). -/
def Obligations.ReadingTheResponseOutsideDoneFaults : Prop :=
  (∀ s : State, s.wasReset = true → (step s = .fault .rspReadWhileNotValid ↔ s.nextInput.readRsp = true ∧ s.rspValid = false)) ∧
  (∀ s : State, step s = .fault .rspReadBeforeReset ↔ s.nextInput.readRsp = true ∧ s.wasReset = false) ∧
  (∀ s : State, s.wasReset = true → (s.outputs.rsp = some s.rsp.pins ↔ s.phase = .done) ∧ (s.outputs.rsp = none ↔ s.phase ≠ .done))

/-- R100 (the model's form of "the model gives it no move", log 5): after the first reset, a step is refused exactly when, at
an edge without reset and with no read fault, a raised request is withdrawn or changed before it is accepted. -/
def Obligations.ChangedRequestIsRefused : Prop :=
  ∀ s : State, s.wasReset = true →
    (step s = .refused .requestChangedBeforeAcceptance ↔
      (s.nextInput.readRsp = true → s.rspValid = true) ∧ s.nextInput.rst = false ∧
      ∃ r : Request, s.offer = some r ∧ (s.nextInput.reqValid = false ∨ s.nextInput.req ≠ r))

/-- R98 (the model's form, log 7): before the first reset only an edge with rst = 1 and no read answers a next state, and that
state is the reset state whatever the block held. -/
def Obligations.OnlyResetLeavesPowerOn : Prop :=
  ∀ s : State, s.wasReset = false →
    ((∃ t : State, step s = .next t) ↔ s.nextInput.rst = true ∧ s.nextInput.readRsp = false) ∧
    ∀ t : State, step s = .next t → t = { State.reset with inputs := s.inputs.tail }

/-- R18: the only moves of the phase; what each phase says of `busy` and `rsp_valid` in every state of the invariant; and the
outputs show the phase only through `req_ready` and `rsp_valid`. -/
def Obligations.PhaseMovesOnlyInTheCycle : Prop :=
  (∀ s t : State, step s = .next t →
    t.phase = s.phase ∨ (s.phase = .idle ∧ t.phase = .pending ∧ s.nextInput.reqValid = true ∧ s.reqReady = true) ∨
    (s.phase = .pending ∧ t.phase = .done ∧ s.edgesLeft ≤ 1) ∨ (s.phase = .done ∧ t.phase = .idle ∧ s.nextInput.rspReady = true) ∨
    (t.phase = .idle ∧ s.nextInput.rst = true)) ∧
  (∀ s : State, s.Inv →
    (s.phase = .idle → s.busy = false ∧ s.rspValid = false) ∧ (s.phase = .pending → s.busy = true ∧ s.rspValid = false) ∧
    (s.phase = .done → s.busy = true ∧ s.rspValid = true)) ∧
  (∀ s u : State, s.reqReady = u.reqReady → s.rspValid = u.rspValid → s.rsp = u.rsp → s.wasReset = u.wasReset →
    s.outputs = u.outputs)

/-- R94: `req_ready` is NOT busy, `rsp_valid` is 1 exactly in phase DONE, and the response ports show `rsp`, its status by the
code of R49. -/
def Obligations.PortsFollowTheRegisters : Prop :=
  ∀ s : State, s.outputs.reqReady = !s.busy ∧ (s.outputs.rspValid = true ↔ s.phase = .done) ∧
    ∀ p : RspPins, s.outputs.rsp = some p →
      p.rspLen = s.rsp.outLen ∧ p.rspData = s.rsp.outData ∧ (p.rspVerdict = 1#1 ↔ s.rsp.verdict = true) ∧
      p.rspStatus.toNat =
        match s.rsp.status with
        | .ok => 0
        | .invalidLength => 1
        | .invalidCharacter => 2
        | .illegalOp => 3

/-! ### Whole-machine statements -/

/-- The invariant holds after reset. Its clause on the response register rests on the model's choice of zeros after reset
(log 3). -/
def Obligations.InvariantHoldsAtReset : Prop := State.reset.Inv

/-- Every step keeps the invariant: busy is 1 exactly outside IDLE, a pending request has 1 to LATENCY edges to go, a presented
response is Codec of its request, and the response register keeps its shape. -/
def Obligations.StepKeepsTheInvariant : Prop := ∀ s t : State, s.Inv → step s = .next t → t.Inv

/-- R86: from every state of the invariant, a run in which the host makes only legal moves never stops, whatever it requests,
and every edge of it keeps the invariant. -/
def Obligations.LegalRunsNeverStop : Prop :=
  ∀ (s : State) (n : Nat), s.Inv → s.legalFor n → ∃ t : State, s.reaches n t ∧ t.Inv

/-- R101 and R105: an accepted request that no reset interrupts is answered exactly LATENCY edges after the accepting edge, for
every LATENCY, with Codec of it presented in DONE, and not before; and while the phase stays DONE, `rsp` and `rsp_valid` do not
change, and a request offered meanwhile stands as offered (R100). -/
def Obligations.ResponseComesAfterExactlyLatencyEdges : Prop :=
  (∀ s : State, s.Inv → s.phase = .idle → s.nextInput.reqValid = true → s.quietFor (1 + Config.latency) →
    (∃ t : State, s.reaches (1 + Config.latency) t ∧ t.phase = .done ∧ t.rspValid = true ∧ t.rsp = codec s.nextInput.req ∧
      t.req = s.nextInput.req) ∧
    ∀ j : Nat, j < Config.latency → ∃ u : State, s.reaches (1 + j) u ∧ u.phase = .pending ∧ u.rspValid = false) ∧
  (∀ s : State, s.hostQuiet = true → s.phase = .done → s.nextInput.rspReady = false →
    ∃ t : State, step s = .next t ∧ t.phase = .done ∧ t.rsp = s.rsp ∧ t.rspValid = true ∧ t.busy = s.busy ∧
      t.offer = if s.nextInput.reqValid then some s.nextInput.req else none)

/-- R103: `req_ready` stays 0 from an acceptance until a take, and with no reset the next acceptance is at least LATENCY + 2
edges after it. -/
def Obligations.AcceptancesAreLatencyPlusTwoApart : Prop :=
  (∀ s t : State, s.Inv → s.phase ≠ .idle → step s = .next t → s.nextInput.rst = false →
    ¬ (s.phase = .done ∧ s.nextInput.rspReady = true) → t.reqReady = false) ∧
  (∀ s : State, s.Inv → s.phase = .idle → s.nextInput.reqValid = true → s.quietFor (1 + Config.latency + 1) →
    ∀ j : Nat, j ≤ Config.latency → ∃ u : State, s.reaches (1 + j) u ∧ u.reqReady = false)

/-- R39: from an idle state, after any number of edges with resets among them, the responses the host has taken since the last
reset are, in order, Codec of the first requests accepted since then, and at most one accepted request is unanswered. -/
def Obligations.ResponsesAnswerRequestsInOrder : Prop :=
  ∀ (s : State) (n : Nat), s.Inv → s.phase = .idle →
    let y := s.tally { accepted := [], taken := [] } n
    y.taken = (y.accepted.take y.taken.length).map codec ∧ y.accepted.length ≤ y.taken.length + 1 ∧
    y.taken.length ≤ y.accepted.length

/-- R107: the cycle-level step refines the transaction-level step relation. From a state of the invariant, an edge that answers
a next state makes at most one step of the relation, the one of `edgeMoves`, between the states the two stand for; an edge that
faults is ReadRsp, which records that fault; and Complete is enabled in every PENDING state. -/
def Obligations.StepRefinesTheTransactionModel : Prop :=
  (∀ s t : State, s.Inv → step s = .next t →
    (s.edgeMoves s.nextInput).length ≤ 1 ∧ s.abs.moves (s.edgeMoves s.nextInput) = some t.abs) ∧
  (∀ (s : State) (f : Fault), s.Inv → step s = .fault f → s.abs.move .readRsp = some { s.abs with faults := [f] }) ∧
  (∀ (t : TState) (r : Request), t.phase = .pending r → t.move .complete = some { t with phase := .done (codec r) })

/-- R96: after a reset in flight, a legal read at that edge (log 9) or none, the discarded request gets no response: no response is
taken at the edge or shown after it, and every response the host takes from then on answers a request accepted from then on.
Re-issued at any later edge at which the block is idle, the request gets the response the discarded one would have given. -/
def Obligations.ReissuedRequestGetsTheSameResponse : Prop :=
  ∀ s : State, s.Inv → s.phase ≠ .idle → s.nextInput.rst = true → (s.nextInput.readRsp = true → s.rspValid = true) →
    ∃ t : State, step s = .next t ∧ t.phase = .idle ∧ t.outputs.rsp = none ∧ s.edgeMoves s.nextInput = [.reset] ∧
      (∀ n : Nat,
        let y := t.tally { accepted := [], taken := [] } n
        y.taken = (y.accepted.take y.taken.length).map codec ∧ y.taken.length ≤ y.accepted.length) ∧
      ∀ (n : Nat) (u : State), t.reaches n u → u.phase = .idle → u.nextInput.reqValid = true → u.nextInput.req = s.req →
        u.quietFor (1 + Config.latency) →
        ∃ v : State, u.reaches (1 + Config.latency) v ∧ v.phase = .done ∧ v.rsp = codec s.req ∧
          (s.phase = .done → v.rsp = s.rsp)

/-! ### The host's side -/

/-- R46: the length is the number of octets, saturated to 0xFFFFFFFF from 2^32 on; saturating changes no outcome, because a
length is written as 16 or 26 only if it is. -/
def Obligations.SaturatedLengthIsExact : Prop :=
  (∀ n : Nat, n < 2 ^ 32 → (hostLen n).toNat = n) ∧ (∀ n : Nat, 2 ^ 32 ≤ n → hostLen n = 0xFFFFFFFF#32) ∧
  (∀ n : Nat, (hostLen n = 16#32 ↔ n = 16) ∧ (hostLen n = 26#32 ↔ n = 26))

/-- R47: lane k holds octet k of the input; octets from 26 on are not sent; no operation reads a lane at or above
min(len, 26); and an input longer than 26 octets is rejected on its length alone. -/
def Obligations.LanesCarryTheInput : Prop :=
  (∀ (c : Byte) (bytes : List Byte) (k : Fin 26) (h : k.val < bytes.length), (hostRequest c bytes).data[k] = bytes[k.val]) ∧
  (∀ bytes : List Byte, hostLanes bytes = hostLanes (bytes.take 26)) ∧
  (∀ r q : Request, r.cmd = q.cmd → r.len = q.len → (∀ k : Fin 26, k.val < min r.len.toNat 26 → r.data[k] = q.data[k]) →
    codec r = codec q) ∧
  (∀ bytes : List Byte, 26 < bytes.length →
    (codec (hostRequest 0x00#8 bytes)).status = .invalidLength ∧ (codec (hostRequest 0x01#8 bytes)).status = .invalidLength ∧
    (codec (hostRequest 0x02#8 bytes)).verdict = false)

/-- R56: what each line of the notation writes, and RESET drives rst = 1. -/
def Obligations.NotationWritesItsRequests : Prop :=
  (∀ b : List Byte, b.length = 16 → ∃ q : Request, hostLineRequest? (.encode b) = some q ∧ q.cmd = 0x00#8 ∧ q.len = 16#32 ∧
    ∀ k : Fin 26, q.data[k] = b.getD k.val 0#8) ∧
  (∀ b : List Byte, ∃ q : Request, hostLineRequest? (.decode b) = some q ∧ q.cmd = 0x01#8 ∧ q.len = hostLen b.length ∧
    ∀ k : Fin 26, q.data[k] = b.getD k.val 0#8) ∧
  (∀ b : List Byte, ∃ q : Request, hostLineRequest? (.valid b) = some q ∧ q.cmd = 0x02#8 ∧ q.len = hostLen b.length ∧
    ∀ k : Fin 26, q.data[k] = b.getD k.val 0#8) ∧
  (∀ (n : Len) (b : List Byte), b.length ≤ 26 → ∃ q : Request, hostLineRequest? (.encodeL n b) = some q ∧ q.cmd = 0x00#8 ∧
    q.len = n ∧ ∀ k : Fin 26, q.data[k] = b.getD k.val 0#8) ∧
  (∀ (c : Byte) (n : Len) (b : List Byte), b.length ≤ 26 → ∃ q : Request, hostLineRequest? (.req c n b) = some q ∧ q.cmd = c ∧
    q.len = n ∧ ∀ k : Fin 26, q.data[k] = b.getD k.val 0#8) ∧
  (hostLineRequest? .reset = none ∧ ∃ i : EdgeInput, hostLineDrive? .reset = some i ∧ i.rst = true) ∧
  (∀ (l : HostLine) (q : Request), hostLineRequest? l = some q →
    ∃ i : EdgeInput, hostLineDrive? l = some i ∧ i.rst = false ∧ i.reqValid = true ∧ i.req = q)

/-- R57: GENERATE_TEXT with t < 2^48 and ten random bytes expands to one ENCODE request of 16 bytes, whose value is the
timestamp above the random bytes, and it always yields OK and 26 symbols; for t ≥ 2^48 the host refuses it. -/
def Obligations.GenerateTextIsAnEncodeThatSucceeds : Prop :=
  (∀ (t : Nat) (r : List Byte), t < 2 ^ 48 → r.length = 10 →
    ∃ q : Request, hostLineRequest? (.generateText t r) = some q ∧ hostLineRequest? (.encode (generateBin t r)) = some q ∧
      q.cmd = 0x00#8 ∧ q.len = 16#32 ∧ bytesValue q.data / 2 ^ 80 = t ∧
      (∀ k : Fin 10, q.data[k.val + 6] = r.getD k.val 0#8) ∧ (codec q).status = .ok ∧ (codec q).outLen = 26#5) ∧
  (∀ (t : Nat) (r : List Byte), 2 ^ 48 ≤ t → hostLineRequest? (.generateText t r) = none)

/-! ### The standing offer, and runs -/

/-- R100 (the model's form, log 6): what stands as offered after any edge: nothing after a reset edge and after an acceptance,
and otherwise the request the host raised at that edge, if it raised one. -/
def Obligations.StandingOfferIsTheUnacceptedRequest : Prop :=
  ∀ s t : State, step s = .next t →
    t.offer =
      if s.nextInput.rst = true ∨ (s.phase = .idle ∧ s.reqReady = true) ∨ s.nextInput.reqValid = false then none
      else some s.nextInput.req

/-- R107: every cycle-level trace maps to a trace of the transaction-level steps, the idle edges forgotten, and ends in the state
it stands for, or in the fault recorded, at which the cycle-level run stops (log 4). An endless run of edges maps to an endless run of the relation in which Complete is
weakly fair, and a PENDING request completes or is reset within LATENCY edges. -/
def Obligations.TracesMapToFairTransactionTraces : Prop :=
  (∀ (s t : State) (n : Nat), s.Inv → s.reaches n t → s.abs.moves (s.trace n) = some t.abs) ∧
  (∀ (s : State) (n : Nat) (f : Fault), s.Inv → edges n s = .fault f →
    ∃ u : TState, s.abs.moves (s.trace n) = some u ∧ u.faults = [f]) ∧
  (∀ s : Nat → State, (s 0).Inv → IsRun s →
    let σ := fun n => (s n).abs
    let μ := fun n => (s n).edgeMoves (s n).nextInput
    IsTRun σ μ ∧ WeaklyFair σ μ .complete ∧
    ∀ n : Nat, (s n).phase = .pending →
      ∃ k : Nat, n ≤ k ∧ k < n + Config.latency ∧ (μ k = [.complete] ∨ μ k = [.reset]))

/-- R107: a run is final exactly where it stops in IDLE, which is where neither Complete nor Take is enabled; one that stops in
PENDING or DONE has a transaction outstanding. When the host has stopped for good the run stays where it stops, and when it
stops issuing and goes on taking, the run ends in IDLE within LATENCY + 1 edges. -/
def Obligations.RunsEndOnlyIdle : Prop :=
  (∀ (t u : TState) (ms : List TMove), t.moves ms = some u →
    (t.stopOf ms = some .final ↔ u.phase = .idle) ∧
    (t.stopOf ms = some .outstanding ↔ (∃ r, u.phase = .pending r) ∨ ∃ p, u.phase = .done p) ∧
    (t.stopOf ms = some .final ↔ u.enabled .complete = false ∧ u.enabled .take = false)) ∧
  (∀ (s t : State) (n : Nat), s.Inv → s.reaches n t → (s.abs.stopOf (s.trace n) = some .final ↔ t.phase = .idle)) ∧
  (∀ s : State, s.Inv → s.phase ≠ .pending → s.inputs = [] → s.offer = none → step s = .next s) ∧
  (∀ s : State, s.Inv → s.drainsFor (Config.latency + 1) →
    ∃ (n : Nat) (t : State), n ≤ Config.latency + 1 ∧ s.reaches n t ∧ s.abs.stopOf (s.trace n) = some .final)
end

