-- ==== Sys2Proof/Laws/State.lean ====
section
/-! SUPPORT. One lemma per field per update of State, true by rfl, so that no proof unfolds a record update. -/

namespace Sys2Proof.Machine

variable (s : State)

/-! ### `respond` (R10) -/

@[simp] theorem State.respond_phase (p : Response) : (s.respond p).phase = .done := rfl
@[simp] theorem State.respond_busy (p : Response) : (s.respond p).busy = s.busy := rfl
@[simp] theorem State.respond_req (p : Response) : (s.respond p).req = s.req := rfl
@[simp] theorem State.respond_rsp (p : Response) : (s.respond p).rsp = p := rfl
@[simp] theorem State.respond_edgesLeft (p : Response) : (s.respond p).edgesLeft = s.edgesLeft := rfl
@[simp] theorem State.respond_wasReset (p : Response) : (s.respond p).wasReset = s.wasReset := rfl
@[simp] theorem State.respond_offer (p : Response) : (s.respond p).offer = s.offer := rfl
@[simp] theorem State.respond_inputs (p : Response) : (s.respond p).inputs = s.inputs := rfl

/-! ### `raise` (R10, R83) -/

@[simp] theorem State.raise_phase (c : Status) : (s.raise c).phase = .done := rfl
@[simp] theorem State.raise_busy (c : Status) : (s.raise c).busy = s.busy := rfl
@[simp] theorem State.raise_req (c : Status) : (s.raise c).req = s.req := rfl
@[simp] theorem State.raise_rsp (c : Status) : (s.raise c).rsp = errorResponse c := rfl
@[simp] theorem State.raise_edgesLeft (c : Status) : (s.raise c).edgesLeft = s.edgesLeft := rfl
@[simp] theorem State.raise_wasReset (c : Status) : (s.raise c).wasReset = s.wasReset := rfl
@[simp] theorem State.raise_offer (c : Status) : (s.raise c).offer = s.offer := rfl
@[simp] theorem State.raise_inputs (c : Status) : (s.raise c).inputs = s.inputs := rfl

/-! ### acceptance (R99) -/

@[simp] theorem State.accept_phase (n : Nat) (r : Request) : (s.accept n r).phase = .pending := rfl
@[simp] theorem State.accept_busy (n : Nat) (r : Request) : (s.accept n r).busy = true := rfl
@[simp] theorem State.accept_req (n : Nat) (r : Request) : (s.accept n r).req = r := rfl
@[simp] theorem State.accept_rsp (n : Nat) (r : Request) : (s.accept n r).rsp = s.rsp := rfl
@[simp] theorem State.accept_edgesLeft (n : Nat) (r : Request) : (s.accept n r).edgesLeft = n := rfl
@[simp] theorem State.accept_wasReset (n : Nat) (r : Request) : (s.accept n r).wasReset = s.wasReset := rfl
@[simp] theorem State.accept_offer (n : Nat) (r : Request) : (s.accept n r).offer = none := rfl
@[simp] theorem State.accept_inputs (n : Nat) (r : Request) : (s.accept n r).inputs = s.inputs := rfl

/-! ### a counted edge (R101) -/

@[simp] theorem State.countEdge_phase : (s.countEdge).phase = s.phase := rfl
@[simp] theorem State.countEdge_busy : (s.countEdge).busy = s.busy := rfl
@[simp] theorem State.countEdge_req : (s.countEdge).req = s.req := rfl
@[simp] theorem State.countEdge_rsp : (s.countEdge).rsp = s.rsp := rfl
@[simp] theorem State.countEdge_edgesLeft : (s.countEdge).edgesLeft = s.edgesLeft - 1 := rfl
@[simp] theorem State.countEdge_wasReset : (s.countEdge).wasReset = s.wasReset := rfl
@[simp] theorem State.countEdge_offer : (s.countEdge).offer = s.offer := rfl
@[simp] theorem State.countEdge_inputs : (s.countEdge).inputs = s.inputs := rfl

/-! ### take (R102) -/

@[simp] theorem State.take_phase : (s.take).phase = .idle := rfl
@[simp] theorem State.take_busy : (s.take).busy = false := rfl
@[simp] theorem State.take_req : (s.take).req = s.req := rfl
@[simp] theorem State.take_rsp : (s.take).rsp = s.rsp := rfl
@[simp] theorem State.take_edgesLeft : (s.take).edgesLeft = s.edgesLeft := rfl
@[simp] theorem State.take_wasReset : (s.take).wasReset = s.wasReset := rfl
@[simp] theorem State.take_offer : (s.take).offer = s.offer := rfl
@[simp] theorem State.take_inputs : (s.take).inputs = s.inputs := rfl

/-! ### the standing offer (R100) -/

@[simp] theorem State.noteOffer_phase (i : EdgeInput) : (s.noteOffer i).phase = s.phase := rfl
@[simp] theorem State.noteOffer_busy (i : EdgeInput) : (s.noteOffer i).busy = s.busy := rfl
@[simp] theorem State.noteOffer_req (i : EdgeInput) : (s.noteOffer i).req = s.req := rfl
@[simp] theorem State.noteOffer_rsp (i : EdgeInput) : (s.noteOffer i).rsp = s.rsp := rfl
@[simp] theorem State.noteOffer_edgesLeft (i : EdgeInput) : (s.noteOffer i).edgesLeft = s.edgesLeft := rfl
@[simp] theorem State.noteOffer_wasReset (i : EdgeInput) : (s.noteOffer i).wasReset = s.wasReset := rfl
@[simp] theorem State.noteOffer_offer (i : EdgeInput) : (s.noteOffer i).offer = if i.reqValid then some i.req else none := rfl
@[simp] theorem State.noteOffer_inputs (i : EdgeInput) : (s.noteOffer i).inputs = s.inputs := rfl

/-! ### the consumed pins (log 2) -/

@[simp] theorem State.dropInput_phase : (s.dropInput).phase = s.phase := rfl
@[simp] theorem State.dropInput_busy : (s.dropInput).busy = s.busy := rfl
@[simp] theorem State.dropInput_req : (s.dropInput).req = s.req := rfl
@[simp] theorem State.dropInput_rsp : (s.dropInput).rsp = s.rsp := rfl
@[simp] theorem State.dropInput_edgesLeft : (s.dropInput).edgesLeft = s.edgesLeft := rfl
@[simp] theorem State.dropInput_wasReset : (s.dropInput).wasReset = s.wasReset := rfl
@[simp] theorem State.dropInput_offer : (s.dropInput).offer = s.offer := rfl
@[simp] theorem State.dropInput_inputs : (s.dropInput).inputs = s.inputs.tail := rfl

/-! ### reset (R95) -/

@[simp] theorem State.applyReset_phase : (s.applyReset).phase = .idle := rfl
@[simp] theorem State.applyReset_busy : (s.applyReset).busy = false := rfl
@[simp] theorem State.applyReset_req : (s.applyReset).req = Request.blank := rfl
@[simp] theorem State.applyReset_rsp : (s.applyReset).rsp = Response.blank := rfl
@[simp] theorem State.applyReset_edgesLeft : (s.applyReset).edgesLeft = 0 := rfl
@[simp] theorem State.applyReset_wasReset : (s.applyReset).wasReset = true := rfl
@[simp] theorem State.applyReset_offer : (s.applyReset).offer = none := rfl
@[simp] theorem State.applyReset_inputs : (s.applyReset).inputs = s.inputs := rfl

end Sys2Proof.Machine
end

