-- ==== Sys2Proof/Laws/Codec.lean ====
section
/-! SUPPORT. What the three responses, Codec and the completion edge can answer. -/

namespace Sys2Proof.Machine

open Sys2Proof

/-- Everything ENCODE can respond (R59). -/
theorem encodeResponse_cases (r : Request) :
    (r.len ≠ 16#32 ∧ encodeResponse r = errorResponse .invalidLength) ∨
    (r.len = 16#32 ∧ encodeResponse r = okResponse 26#5 (symbolLanes (binaryOperand r.data)) false) := by
  unfold encodeResponse; split
  · next h => exact .inl ⟨h, rfl⟩
  · next h => exact .inr ⟨not_ne_iff.1 h, rfl⟩

/-- Everything DECODE can respond (R67), in the order of R84. -/
theorem decodeResponse_cases (r : Request) :
    (r.len ≠ 26#32 ∧ decodeResponse r = errorResponse .invalidLength) ∨
    (r.len = 26#32 ∧ (allMembers r.data = false ∨ firstSymbolFits r.data = false) ∧
      decodeResponse r = errorResponse .invalidCharacter) ∨
    (r.len = 26#32 ∧ allMembers r.data = true ∧ firstSymbolFits r.data = true ∧
      decodeResponse r = okResponse 16#5 (binaryLanes (align (textValues r.data))) false) := by
  unfold decodeResponse; split_ifs <;> simp_all

/-- Everything VALID can respond (R76). -/
theorem validResponse_cases (r : Request) :
    validResponse r =
      okResponse 0#5 Lanes.zero (decide (r.len = 26#32) && (allMembers r.data && firstSymbolFits r.data)) := by
  unfold validResponse; split_ifs <;> simp_all

/-- Codec by the command byte (R107). -/
theorem codec_cases (r : Request) :
    (r.cmd = 0x00#8 ∧ codec r = encodeResponse r) ∨ (r.cmd = 0x01#8 ∧ codec r = decodeResponse r) ∨
    (r.cmd = 0x02#8 ∧ codec r = validResponse r) ∨
    (r.cmd ≠ 0x00#8 ∧ r.cmd ≠ 0x01#8 ∧ r.cmd ≠ 0x02#8 ∧ codec r = errorResponse .illegalOp) := by
  unfold codec; split_ifs <;> simp_all

/-- The decoder by the command byte (R44, R45). -/
theorem decodeCmd_cases (c : Byte) :
    (c = 0x00#8 ∧ decodeCmd c = .ok .encode) ∨ (c = 0x01#8 ∧ decodeCmd c = .ok .decode) ∨
    (c = 0x02#8 ∧ decodeCmd c = .ok .valid) ∨
    (c ≠ 0x00#8 ∧ c ≠ 0x01#8 ∧ c ≠ 0x02#8 ∧ ∃ e, decodeCmd c = .error e) := by
  by_cases h0 : c = 0x00#8
  · subst h0; exact .inl ⟨rfl, rfl⟩
  by_cases h1 : c = 0x01#8
  · subst h1; exact .inr (.inl ⟨rfl, rfl⟩)
  by_cases h2 : c = 0x02#8
  · subst h2; exact .inr (.inr (.inl ⟨rfl, rfl⟩))
  have key : ∀ c : Byte, c ≠ 0x00#8 → c ≠ 0x01#8 → c ≠ 0x02#8 → cmdRsv c = 0#6 →
      cmdOp c ≠ 0#2 ∧ cmdOp c ≠ 1#2 ∧ cmdOp c ≠ 2#2 := by decide
  refine .inr (.inr (.inr ⟨h0, h1, h2, ?_⟩))
  unfold decodeCmd
  by_cases hr : cmdRsv c = 0#6
  · have := key c h0 h1 h2 hr
    exact ⟨.reservedOp, by simp [hr, this]⟩
  · exact ⟨.reservedBits, by simp [hr]⟩

/-- The completion edge responds with Codec of the request and does nothing else (R101, R107). -/
theorem complete_eq (s : State) : s.complete = .next (s.respond (codec s.req)) := by
  unfold State.complete codec
  rcases decodeCmd_cases s.req.cmd with ⟨h, e⟩ | ⟨h, e⟩ | ⟨h, e⟩ | ⟨h0, h1, h2, r, e⟩ <;> rw [e]
  · rw [if_pos h]; rfl
  · rw [if_neg (by rw [h]; decide), if_pos h]; rfl
  · rw [if_neg (by rw [h]; decide), if_neg (by rw [h]; decide), if_pos h]; rfl
  · rw [if_neg h0, if_neg h1, if_neg h2]; rfl

end Sys2Proof.Machine
end

