-- ==== Sys2Proof/Laws/Edge.lean ====
section
/-! SUPPORT. Everything one rising edge can do, said once: by the phase, by the checks before the handshake, and for `step`. -/

namespace Sys2Proof.Machine

open Sys2Proof

/-- An edge that reaches the handshake always answers a next state, and one of these six. -/
theorem handshake_cases (n : Nat) (i : EdgeInput) (s : State) :
    ∃ t, s.handshake n i = .next t ∧
      ((s.phase = .idle ∧ i.reqValid = true ∧ s.reqReady = true ∧ t = s.accept n i.req) ∨
       (s.phase = .idle ∧ ¬ (i.reqValid = true ∧ s.reqReady = true) ∧ t = s.noteOffer i) ∨
       (s.phase = .pending ∧ s.edgesLeft ≤ 1 ∧ t = ((s.noteOffer i).countEdge).respond (codec s.req)) ∨
       (s.phase = .pending ∧ 1 < s.edgesLeft ∧ t = (s.noteOffer i).countEdge) ∨
       (s.phase = .done ∧ i.rspReady = true ∧ t = (s.noteOffer i).take) ∨
       (s.phase = .done ∧ i.rspReady = false ∧ t = s.noteOffer i)) := by
  unfold State.handshake
  cases hp : s.phase <;> dsimp only
  · by_cases h : (i.reqValid && s.reqReady) = true
    · rw [if_pos h]; rw [Bool.and_eq_true] at h; exact ⟨_, rfl, .inl ⟨rfl, h.1, h.2, rfl⟩⟩
    · rw [if_neg h]; rw [Bool.and_eq_true] at h; exact ⟨_, rfl, .inr (.inl ⟨rfl, h, rfl⟩)⟩
  · by_cases h : s.edgesLeft ≤ 1
    · rw [if_pos h, complete_eq]; exact ⟨_, rfl, .inr (.inr (.inl ⟨rfl, h, rfl⟩))⟩
    · rw [if_neg h]; exact ⟨_, rfl, .inr (.inr (.inr (.inl ⟨rfl, by omega, rfl⟩)))⟩
  · cases h : i.rspReady <;> simp

/-- A read of the response is no fault exactly in phase DONE after the first reset (R19, R98). -/
theorem readFault_none (s : State) : s.readFault = none ↔ s.wasReset = true ∧ s.phase = .done := by
  unfold State.readFault State.rspValid; split_ifs <;> simp_all

/-- An edge that answers a next state is a reset edge or an edge of the handshake. -/
theorem edge_next (n : Nat) (i : EdgeInput) (s t : State) (h : s.edge n i = .next t) :
    (i.readRsp = true → s.readFault = none) ∧
    ((i.rst = true ∧ t = s.applyReset) ∨
     (i.rst = false ∧ s.wasReset = true ∧ i.keepsOffer s.offer = true ∧ s.handshake n i = .next t)) := by
  unfold State.edge at h
  split at h
  · cases h
  · next hr =>
    refine ⟨fun hh => by simpa [hh] using hr, ?_⟩
    split_ifs at h with h1 h2 h3
    · cases h; exact .inl ⟨h1, rfl⟩
    · exact .inr ⟨by simpa using h1, by simpa using h2, by simpa using h3, h⟩

/-- A reset edge with no faulting read is the reset (R95). -/
theorem edge_reset (n : Nat) (i : EdgeInput) (s : State) (hr : i.readRsp = true → s.readFault = none)
    (h : i.rst = true) : s.edge n i = .next s.applyReset := by
  have e : (if i.readRsp = true then s.readFault else none) = none := by
    split_ifs with hh
    · exact hr hh
    · rfl
  unfold State.edge; rw [e]; simp [h]

/-- A legal edge without reset is the handshake. -/
theorem edge_handshake (n : Nat) (i : EdgeInput) (s : State) (hr : i.readRsp = true → s.readFault = none)
    (h : i.rst = false) (hw : s.wasReset = true) (hk : i.keepsOffer s.offer = true) :
    s.edge n i = s.handshake n i := by
  have e : (if i.readRsp = true then s.readFault else none) = none := by
    split_ifs with hh
    · exact hr hh
    · rfl
  unfold State.edge; rw [e]; simp [h, hw, hk]

/-- The handshake never faults and never refuses. -/
theorem handshake_next (n : Nat) (i : EdgeInput) (s : State) : ∃ t, s.handshake n i = .next t := by
  obtain ⟨t, e, -⟩ := handshake_cases n i s
  exact ⟨t, e⟩

/-- An edge faults exactly when the host's read is a fault. -/
theorem edge_fault (n : Nat) (i : EdgeInput) (s : State) (f : Fault) :
    s.edge n i = .fault f ↔ i.readRsp = true ∧ s.readFault = some f := by
  obtain ⟨t, ht⟩ := handshake_next n i s
  unfold State.edge
  rw [ht]
  cases i.readRsp <;> cases s.readFault <;> simp <;> cases i.rst <;> cases s.wasReset <;>
    cases i.keepsOffer s.offer <;> simp

/-- An edge refuses exactly when, with no fault and no reset, it comes before the first reset or changes the offered
request. -/
theorem edge_refused (n : Nat) (i : EdgeInput) (s : State) (r : Refusal) :
    s.edge n i = .refused r ↔ (i.readRsp = true → s.readFault = none) ∧ i.rst = false ∧
      ((s.wasReset = false ∧ r = .notYetReset) ∨
       (s.wasReset = true ∧ i.keepsOffer s.offer = false ∧ r = .requestChangedBeforeAcceptance)) := by
  obtain ⟨t, ht⟩ := handshake_next n i s
  unfold State.edge
  rw [ht]
  cases i.readRsp <;> cases s.readFault <;> simp <;> cases i.rst <;> cases s.wasReset <;>
    cases i.keepsOffer s.offer <;> simp [eq_comm]

/-- What a quiet move of the host is. -/
theorem hostQuiet_iff (s : State) :
    s.hostQuiet = true ↔ (s.nextInput.readRsp = true → s.readFault = none) ∧ s.nextInput.rst = false ∧
      s.wasReset = true ∧ s.nextInput.keepsOffer s.offer = true := by
  unfold State.hostQuiet State.hostLegal
  rw [readFault_none]
  cases s.nextInput.readRsp <;> cases s.nextInput.rst <;> cases s.wasReset <;> simp [State.rspValid, and_comm]

/-- At a quiet move of the host a step is the handshake. -/
theorem step_quiet (s : State) (h : s.hostQuiet = true) :
    step s = s.dropInput.handshake Config.latency s.nextInput := by
  obtain ⟨h1, h2, h3, h4⟩ := (hostQuiet_iff s).1 h
  exact edge_handshake _ _ _ h1 h2 h3 h4

/-- A step that answers a next state is a reset edge or an edge of the handshake at a quiet move of the host. -/
theorem step_next (s t : State) (h : step s = .next t) :
    (s.nextInput.readRsp = true → s.readFault = none) ∧
    ((s.nextInput.rst = true ∧ t = s.dropInput.applyReset) ∨
     (s.nextInput.rst = false ∧ s.hostQuiet = true ∧ s.dropInput.handshake Config.latency s.nextInput = .next t)) := by
  obtain ⟨h1, h2⟩ := edge_next _ _ _ _ h
  refine ⟨h1, h2.imp id ?_⟩
  rintro ⟨a, b, c, d⟩
  exact ⟨a, (hostQuiet_iff s).2 ⟨h1, a, b, c⟩, d⟩

/-- No edge of any run. -/
theorem reaches_zero (s t : State) : s.reaches 0 t ↔ s = t := by simp [State.reaches, edges]

/-- The first edge of a run. -/
theorem reaches_succ (s t u : State) (n : Nat) (h : step s = .next t) : s.reaches (n + 1) u ↔ t.reaches n u := by
  simp [State.reaches, edges, h]

end Sys2Proof.Machine
end

