-- ==== Sys2Proof/Laws/Operands.lean ====
section
/-! SUPPORT. One lane of each operand function (R52, R54, R55), and the number a concatenation stands for. -/

namespace Sys2Proof.Machine

open Sys2Proof

/-- `x ‖ y` as a number (R8): the low part has the weight 1 and the high part 2^n. -/
theorem toNat_concat {m n : Nat} (x : BitVec m) (y : BitVec n) : (x ++ y).toNat = x.toNat * 2 ^ n + y.toNat := by
  rw [BitVec.toNat_append, ← Nat.shiftLeft_add_eq_or_of_lt y.isLt, Nat.shiftLeft_eq]

theorem fields_lane (v : Ulid) (k : Fin 26) : (fields v)[k] = field v k := by
  rw [fields, Fin.getElem_fin, Vector.getElem_ofFn]

theorem symbolLanes_lane (v : Ulid) (k : Fin 26) : (symbolLanes v)[k] = encLut (field v k) := by
  rw [symbolLanes, Fin.getElem_fin, Vector.getElem_ofFn]

theorem textValues_lane (d : Lanes) (k : Fin 26) : (textValues d)[k] = symValue d[k] := by
  rw [textValues, Fin.getElem_fin, Vector.getElem_ofFn]

theorem binaryLanes_byte (v : Ulid) (j : Fin 26) (h : j.val < 16) : (binaryLanes v)[j] = binaryByte v j.val := by
  rw [binaryLanes, Fin.getElem_fin, Vector.getElem_ofFn, if_pos h]

theorem binaryLanes_zero (v : Ulid) (j : Fin 26) (h : 16 ≤ j.val) : (binaryLanes v)[j] = 0#8 := by
  rw [binaryLanes, Fin.getElem_fin, Vector.getElem_ofFn, if_neg (Nat.not_lt.2 h)]

theorem lanesZero_lane (k : Fin 26) : Lanes.zero[k] = 0#8 := by
  rw [Lanes.zero, Fin.getElem_fin, Vector.getElem_replicate]

end Sys2Proof.Machine
end

