-- ==== Sys2Proof/Laws/PerInstr.lean ====
section
/-! SUPPORT. Statements about every operation as syntax, one lemma per constructor of Instr. -/

namespace Sys2Proof.Laws.CommandFields

/-- The command byte of an operation has its reserved field zero and `op` below 3 (R43, R44). -/
def Statement (i : Instr) : Prop := cmdRsv (encodeCmd i) = 0#6 ∧ (cmdOp (encodeCmd i)).toNat < 3

theorem encode : Statement .encode := ⟨rfl, by decide⟩

theorem decode : Statement .decode := ⟨rfl, by decide⟩

theorem valid : Statement .valid := ⟨rfl, by decide⟩

end Sys2Proof.Laws.CommandFields
end

