-- ==== Sys2Proof/Laws/Tables.lean ====
section
/-! SUPPORT. What the two tables do (R21, R22, R24) and what the conditions over them say. -/

namespace Sys2Proof.Machine

open Sys2Proof

/-- The inverse LUT undoes the symbol LUT (R24). -/
theorem decLut_encLut (v : Sym5) : decLut (encLut v) = (true, v) := by revert v; decide

/-- A member's value has that byte as its symbol (R24). -/
theorem encLut_of_decLut (c : Byte) : ∀ v : Sym5, decLut c = (true, v) → encLut v = c := by revert c; decide

/-- A byte marked member is the symbol of its value (R22). -/
theorem encLut_symValue (c : Byte) (h : isMember c = true) : encLut (symValue c) = c :=
  encLut_of_decLut c _ (Prod.ext h rfl)

/-- The symbol LUT is strictly increasing (R23). -/
theorem encLut_lt (v w : Sym5) (h : v < w) : encLut v < encLut w := by revert v w; decide

theorem allMembers_iff (d : Lanes) : allMembers d = true ↔ ∀ k : Fin 26, isMember d[k] = true := by
  unfold allMembers; rw [decide_eq_true_iff]

theorem firstSymbolFits_iff (d : Lanes) : firstSymbolFits d = true ↔ symValue d[0] ≤ 7#5 := by
  unfold firstSymbolFits; rw [decide_eq_true_iff]

end Sys2Proof.Machine
end

