-- ==== Sys2Proof/Laws/Transaction.lean ====
section
/-! SUPPORT. Small lemmas about the transaction-level model: which steps are enabled, where a run is final, steps in a row, and traces. -/

namespace Sys2Proof.Machine

open Sys2Proof

/-- Complete is enabled exactly in PENDING. -/
theorem TState.enabled_complete (t : TState) : t.enabled .complete = true ↔ ∃ r, t.phase = .pending r := by
  unfold TState.enabled TState.move; cases t.phase <;> simp

/-- Take is enabled exactly in DONE. -/
theorem TState.enabled_take (t : TState) : t.enabled .take = true ↔ ∃ p, t.phase = .done p := by
  unfold TState.enabled TState.move; cases t.phase <;> simp

theorem TState.final_iff (t : TState) : t.final = true ↔ t.phase = .idle := by
  unfold TState.final; cases t.phase <;> simp

@[simp] theorem TState.moves_nil (t : TState) : t.moves [] = some t := rfl

/-- One step in a row of one. -/
@[simp] theorem TState.moves_singleton (t : TState) (m : TMove) : t.moves [m] = t.move m := by
  simp only [TState.moves]; cases t.move m <;> rfl

/-- Steps in a row are made one part after the other. -/
theorem TState.moves_append (ms ns : List TMove) : ∀ t : TState, t.moves (ms ++ ns) = (t.moves ms).bind fun u => u.moves ns := by
  induction ms with
  | nil => intro t; rfl
  | cons m ms ih =>
    intro t
    simp only [List.cons_append, TState.moves]
    cases t.move m with
    | none => rfl
    | some u => simp [ih u]

@[simp] theorem State.trace_zero (s : State) : s.trace 0 = [] := rfl

/-- The trace after an edge that answers a next state. -/
theorem State.trace_next (s t : State) (n : Nat) (h : step s = .next t) :
    s.trace (n + 1) = s.edgeMoves s.nextInput ++ t.trace n := by
  simp [State.trace, h]

/-- The trace of an edge that faults. -/
theorem State.trace_fault (s : State) (n : Nat) (f : Fault) (h : step s = .fault f) : s.trace (n + 1) = [.readRsp] := by
  simp [State.trace, h]

end Sys2Proof.Machine
end

