-- ==== Sys2Proof/Tests/Slice0.lean ====
section
/-! SUPPORT. The model's own tests, with expected results from 95_test_vectors.md, the smoke tests of WellFormed, the decode tests, and for every statement with hypotheses a concrete witness that meets them. -/

namespace Sys2Proof.Tests

open Sys2Proof Sys2Proof.Machine

/-! ### Helpers -/

/-- A request written as `REQ c, n : bytes` (R56). -/
def rq (c : Byte) (n : Len) (bytes : List Byte) : Request := { cmd := c, len := n, data := hostLanes bytes }

/-- A state whose next edge completes the request `r`. -/
def pend (r : Request) : State := { State.reset with phase := .pending, busy := true, req := r, edgesLeft := 1 }

/-- A state that presents the response to `r`. -/
def presented (r : Request) : State :=
  { State.reset with phase := .done, busy := true, req := r, rsp := codec r }

/-- A host that offers `r` at the next edge. -/
def offering (r : Request) : EdgeInput := { rst := false, reqValid := true, req := r, rspReady := false, readRsp := false }

def quietPins : EdgeInput := EdgeInput.rest none

def rspOf : Host.Outcome State Fault Refusal → Option Response
  | .next t => some t.rsp
  | _ => none

def phaseOf : Host.Outcome State Fault Refusal → Option Phase
  | .next t => some t.phase
  | _ => none

def stopOf : Host.Outcome State Fault Refusal → Option (Fault ⊕ Refusal)
  | .next _ => none
  | .fault f => some (.inl f)
  | .refused r => some (.inr r)

/-- 26 `'0'`. -/
def zeros26 : List Byte := List.replicate 26 0x30#8

/-- `'7'` and 25 `'Z'`. -/
def max26 : List Byte := 0x37#8 :: List.replicate 25 0x5A#8

/-- `'8'` and 25 `'0'`. -/
def over26 : List Byte := 0x38#8 :: List.replicate 25 0x30#8

/-- 25 `'0'` and `'a'`. -/
def lower26 : List Byte := List.replicate 25 0x30#8 ++ [0x61#8]

/-! ### WellFormed refuses the ill-formed -/

theorem test_wf_encode_15 : (HostLine.encode (List.replicate 15 0#8)).wellFormed = false := by decide
theorem test_wf_encodeL_27 : (HostLine.encodeL 27#32 (List.replicate 27 0#8)).wellFormed = false := by decide
theorem test_wf_req_27 : (HostLine.req 3#8 27#32 (List.replicate 27 0#8)).wellFormed = false := by decide
theorem test_wf_generate_large : (HostLine.generateText (2 ^ 48) (List.replicate 10 0#8)).wellFormed = false := by decide
theorem test_wf_generate_9 : (HostLine.generateText 0 (List.replicate 9 0#8)).wellFormed = false := by decide

/-! ### Decoding, words bit by bit from R43 and R44: `rsv` 000000, then `op` -/

theorem test_decode_encode : decodeCmd 0b000000_00#8 = .ok .encode := by rfl
theorem test_decode_decode : decodeCmd 0b000000_01#8 = .ok .decode := by rfl
theorem test_decode_valid : decodeCmd 0b000000_10#8 = .ok .valid := by rfl
theorem test_decode_op3 : decodeCmd 0b000000_11#8 = .error .reservedOp := by rfl
theorem test_decode_rsv : decodeCmd 0b000001_00#8 = .error .reservedBits := by rfl
theorem test_table_word : decodeTableWord 8 2 = some .valid := by decide
/-- R59: the blank request's length is not 16. -/
theorem test_fetch_word_runs :
    (rspOf (step (State.reset.withFetchWord 8 0))).map Response.status = some .invalidLength := by decide

/-! ### ENCODE -/

/-- V-E19 of 95_test_vectors.md. -/
theorem test_encode_mixed :
    rspOf (exec .encode (pend (rq 0#8 16#32 [0x01, 0x23, 0x45, 0x67, 0x89, 0xAB, 0xCD, 0xEF, 0xFE, 0xDC, 0xBA, 0x98, 0x76, 0x54,
      0x32, 0x10]))) =
    some { status := .ok, outLen := 26#5, verdict := false
           outData := #v[0x30, 0x31, 0x34, 0x44, 0x32, 0x50, 0x46, 0x32, 0x44, 0x42, 0x53, 0x51, 0x51, 0x5A, 0x58, 0x51, 0x35, 0x54,
             0x4B, 0x31, 0x56, 0x35, 0x38, 0x43, 0x47, 0x47] } := by decide

/-- V-E27: the text size is wrong for ENCODE. -/
theorem test_encode_26_octets : rspOf (exec .encode (pend (rq 0#8 26#32 zeros26))) = some (errorResponse .invalidLength) := by
  decide

/-! ### DECODE -/

/-- V-D10. -/
theorem test_decode_text :
    rspOf (exec .decode (pend (rq 1#8 26#32 [0x30, 0x31, 0x41, 0x52, 0x5A, 0x33, 0x4E, 0x44, 0x45, 0x4B, 0x54, 0x53, 0x56, 0x34,
      0x52, 0x52, 0x46, 0x46, 0x51, 0x36, 0x39, 0x47, 0x35, 0x46, 0x41, 0x56]))) =
    some { status := .ok, outLen := 16#5, verdict := false
           outData := #v[0x01, 0x56, 0x3E, 0x3A, 0xB5, 0xD3, 0xD6, 0x76, 0x4C, 0x61, 0xEF, 0xB9, 0x93, 0x02, 0xBD, 0x5B,
             0, 0, 0, 0, 0, 0, 0, 0, 0, 0] } := by decide

/-- V-D17: the length takes precedence over bad characters. -/
theorem test_decode_25_bad :
    rspOf (exec .decode (pend (rq 1#8 25#32 (List.replicate 25 0x49#8)))) = some (errorResponse .invalidLength) := by decide

/-! ### VALID -/

/-- V-V2. -/
theorem test_valid_max :
    rspOf (exec .valid (pend (rq 2#8 26#32 max26))) = some (okResponse 0#5 (Vector.replicate 26 0#8) true) := by decide

/-- V-V3's overflow, with the smallest value behind it (V-D3's text). -/
theorem test_valid_overflow : (rspOf (exec .valid (pend (rq 2#8 26#32 over26)))).map Response.verdict = some false := by decide

/-! ### Reserved commands, handshake and reset -/

/-- V-X4: the low bits would be VALID. -/
theorem test_reserved : rspOf (step (pend (rq 0x82#8 3#32 [0x41, 0x42, 0x43]))) = some (errorResponse .illegalOp) := by decide

/-- V-H1, e1: the request is accepted. -/
theorem test_accept :
    phaseOf (step { State.reset with inputs := [offering (rq 0#8 16#32 [])] }) = some .pending := by decide

/-- V-H1, e3: the response is taken. -/
theorem test_take :
    phaseOf (step { presented (rq 0#8 16#32 []) with inputs := [{ quietPins with rspReady := true }] }) = some .idle := by decide

/-- V-H3: a read of rsp after reset. -/
theorem test_read_after_reset :
    stopOf (step { State.reset with inputs := [{ quietPins with readRsp := true }] }) =
      some (.inl .rspReadWhileNotValid) := by decide

/-- V-H4: reset together with an offered request. -/
theorem test_reset_overrides :
    phaseOf (step { State.reset with inputs := [{ offering (rq 0#8 16#32 []) with rst := true }] }) = some .idle := by decide

/-- R100: a raised request is changed before it is accepted. -/
theorem test_changed_offer :
    stopOf (step { presented (rq 0#8 16#32 []) with offer := some (rq 0#8 16#32 []), inputs := [offering (rq 1#8 16#32 [])] }) =
      some (.inr .requestChangedBeforeAcceptance) := by decide

/-- U2: the host refuses a timestamp of 2^48. -/
theorem test_generate_refused : hostLineRequest? (.generateText (2 ^ 48) (List.replicate 10 0#8)) = none := by decide

/-! ### Witnesses: the hypotheses of the statements can be met -/

theorem witness_EncLutIsTheOnlyIncreasingOrder :
    (0#5 < 31#5) ∧ ∃ f : Sym5 → Byte, (∀ v w : Sym5, v < w → f v < f w) ∧ (∀ c : Byte, (∃ v, f v = c) ↔ ∃ v, encLut v = c) :=
  ⟨by decide, encLut, encLut_lt, fun _ => Iff.rfl⟩

theorem witness_DecLutInvertsEncLut : decLut 0x5A#8 = (true, 31#5) ∧ encLut 31#5 = encLut 31#5 := by decide

theorem witness_DecLutRejectsEveryOtherByte :
    (∀ v : Sym5, (0x49#8 : Byte) ≠ encLut v) ∧ decLut 0x2F#8 = (false, 0#5) ∧ decLut 0x3A#8 = (false, 0#5) ∧
    decLut 0x40#8 = (false, 0#5) ∧ decLut 0x5B#8 = (false, 0#5) ∧ decLut 0xFF#8 = (false, 0#5) := by decide

theorem witness_CommandByteSelectsItsOperation : decodeCmd 0x02#8 = .ok .valid := by rfl

theorem witness_ReservedCommandAnswersIllegalOp :
    cmdOp (pend (rq 0x03#8 16#32 [])).req.cmd = 3#2 ∧ cmdRsv (pend (rq 0x04#8 16#32 [])).req.cmd ≠ 0#6 := by decide

theorem witness_BinaryOperandIsBigEndian :
    (∀ k : Fin 26, k.val < 16 → (hostLanes [1#8])[k] = ((hostLanes [1#8]).set 16 9#8)[k]) ∧
      hostLanes [1#8] ≠ (hostLanes [1#8]).set 16 9#8 := by decide

theorem witness_AlignerPacksTheFields : (Vector.replicate 26 7#5 : Fields)[0] ≤ 7#5 := by decide

theorem witness_AlignerPacksTheFields_accepted :
    ∃ t, exec .decode (pend (rq 1#8 26#32 max26)) = .next t ∧ t.rsp.status = .ok := ⟨_, rfl, by decide⟩

/-- 16 bytes, the timestamp `t` in byte 5 and `r` in byte 15. -/
def sixteen (t r : Byte) : State := pend (rq 0#8 16#32 [0, 0, 0, 0, 0, t, 0, 0, 0, 0, 0, 0, 0, 0, 0, r])

theorem witness_EncodeAnswersItsSymbols :
    (sixteen 1 2).req.len = 16#32 ∧ (pend (rq 0#8 15#32 [])).req.len ≠ 16#32 ∧ (pend (rq 0#8 17#32 [])).req.len ≠ 16#32 := by
  decide

theorem witness_EncodeOutputsOnlyAlphabetSymbols : (sixteen 1 2).req.len = 16#32 := by decide

theorem witness_EncodePreservesOrder :
    (sixteen 1 2).req.len = 16#32 ∧ (sixteen 1 3).req.len = 16#32 ∧
      bytesValue (sixteen 1 2).req.data < bytesValue (sixteen 1 3).req.data := by decide

theorem witness_TimestampOrdersThePrefix :
    (sixteen 1 2).req.len = 16#32 ∧
    bytesValue (sixteen 1 2).req.data / 2 ^ 80 = bytesValue (sixteen 1 3).req.data / 2 ^ 80 ∧
    bytesValue (sixteen 1 2).req.data % 2 ^ 80 = bytesValue (sixteen 4 2).req.data % 2 ^ 80 ∧
    bytesValue (sixteen 1 3).req.data / 2 ^ 80 < bytesValue (sixteen 4 2).req.data / 2 ^ 80 := by decide

theorem witness_DecodeAnswersItsBytes_length :
    (pend (rq 1#8 25#32 zeros26)).req.len ≠ 26#32 ∧ (pend (rq 1#8 27#32 zeros26)).req.len ≠ 26#32 := by decide

theorem witness_DecodeAnswersItsBytes_member :
    (pend (rq 1#8 26#32 lower26)).req.len = 26#32 ∧ ∃ k : Fin 26, (decLut (pend (rq 1#8 26#32 lower26)).req.data[k]).1 = false :=
  ⟨by decide, 25, by decide⟩

theorem witness_DecodeAnswersItsBytes_overflow :
    (pend (rq 1#8 26#32 over26)).req.len = 26#32 ∧ 7#5 < (decLut (pend (rq 1#8 26#32 over26)).req.data[0]).2 ∧
      ∀ k : Fin 26, (decLut (pend (rq 1#8 26#32 over26)).req.data[k]).1 = true := by decide

theorem witness_DecodeAnswersItsBytes_accepted :
    (pend (rq 1#8 26#32 max26)).req.len = 26#32 ∧ (∀ k : Fin 26, (decLut (pend (rq 1#8 26#32 max26)).req.data[k]).1 = true) ∧
      (decLut (pend (rq 1#8 26#32 max26)).req.data[0]).2 ≤ 7#5 := by decide

theorem witness_FailedDecodeShowsNothingOfItsInput :
    (decodeResponse (rq 1#8 26#32 lower26)).status ≠ .ok ∧ (decodeResponse (rq 1#8 3#32 [])).status ≠ .ok := by decide

/-- DECODE of ENCODE: the second state holds the symbols of the first as its text. -/
theorem witness_DecodeOfEncodeIsTheBytes :
    ∃ s₁ t₁ s₂ : State, s₁.req.len = 16#32 ∧ exec .encode s₁ = .next t₁ ∧ s₂.req.len = 26#32 ∧ s₂.req.data = t₁.rsp.outData :=
  ⟨sixteen 1 2, _, pend { cmd := 1#8, len := 26#32, data := symbolLanes (binaryOperand (sixteen 1 2).req.data) }, by decide, rfl,
    rfl, rfl⟩

theorem witness_EncodeOfDecodeIsTheText :
    ∃ s₁ t₁ s₂ : State, s₁.req.len = 26#32 ∧ exec .decode s₁ = .next t₁ ∧ t₁.rsp.status = .ok ∧ s₂.req.len = 16#32 ∧
      ∀ j : Fin 26, j.val < 16 → s₂.req.data[j] = t₁.rsp.outData[j] :=
  ⟨pend (rq 1#8 26#32 zeros26), (pend (rq 1#8 26#32 zeros26)).respond (decodeResponse (rq 1#8 26#32 zeros26)),
    pend (rq 0#8 16#32 []), by decide, rfl, by decide, by decide, by decide⟩

theorem witness_AcceptedTextsMatchTheValuesOneToOne :
    (decodeResponse (rq 1#8 26#32 max26)).status = .ok ∧
      (decodeResponse (rq 1#8 26#32 max26)).outData = (decodeResponse (rq 1#8 26#32 max26)).outData ∧
      ∃ s : State, s.req.len = 26#32 ∧ s.req.data = hostLanes max26 :=
  ⟨by decide, rfl, pend (rq 1#8 26#32 max26), rfl, rfl⟩

theorem witness_FirstSymbolIsADigitUpToSeven : (pend (rq 2#8 26#32 max26)).req.len = 26#32 := by decide

theorem witness_ValidExactlyWhenDecodeSucceeds :
    (pend (rq 2#8 26#32 max26)).req.len = (pend (rq 1#8 26#32 max26)).req.len ∧
      (pend (rq 2#8 26#32 max26)).req.data = (pend (rq 1#8 26#32 max26)).req.data := by decide

theorem witness_OutcomesHaveTheirCauses :
    (codec (rq 1#8 26#32 lower26)).status ≠ .ok ∧
      (codec (rq 1#8 26#32 lower26)).status = (codec (rq 1#8 26#32 over26)).status := by decide

theorem witness_ErrorResponsesHaveOneForm :
    (codec (rq 0#8 15#32 [])).status ≠ .ok ∧ (codec (rq 3#8 26#32 zeros26)).status ≠ .ok := by decide

theorem witness_FirstCauseIsReported :
    (rq 3#8 15#32 []).cmd ∉ [0x00#8, 0x01#8, 0x02#8] ∧ (rq 0#8 15#32 []).len ≠ 16#32 ∧ (rq 1#8 16#32 []).len ≠ 26#32 ∧
    (∃ k : Fin 26, (decLut (rq 1#8 26#32 lower26).data[k]).1 = false) ∧
    (∀ k : Fin 26, (decLut (rq 1#8 26#32 over26).data[k]).1 = true) ∧ 7#5 < (decLut (rq 1#8 26#32 over26).data[0]).2 :=
  ⟨by decide, by decide, by decide, ⟨25, by decide⟩, by decide, by decide⟩

theorem witness_OperationsReadOnlyTheirLanes :
    let s₁ := pend (rq 0#8 16#32 [])
    let s₂ := pend (rq 0#8 16#32 (List.replicate 16 0#8 ++ [9#8]))
    s₁.req.len = s₂.req.len ∧ (∀ k : Fin 26, k.val < 16 → s₁.req.data[k] = s₂.req.data[k]) ∧ s₁.req.data ≠ s₂.req.data := by
  decide

theorem witness_ResponseDependsOnlyOnTheRequest :
    (pend (rq 0#8 16#32 [])).req = (presented (rq 0#8 16#32 [])).req ∧ pend (rq 0#8 16#32 []) ≠ presented (rq 0#8 16#32 []) := by
  decide

theorem witness_ResponseFieldsFitTheirOperation :
    (codec (rq 1#8 26#32 max26)).outLen.toNat ≤ 16 ∧ (codec (rq 2#8 26#32 max26)).verdict = true := by decide

theorem witness_OperationsWriteOnlyTheResponse :
    ∃ t : State, exec .valid (pend (rq 2#8 26#32 max26)) = .next t := ⟨_, rfl⟩

theorem witness_ResetEdgeClearsEverything :
    let s : State := { presented (rq 2#8 26#32 max26) with
      inputs := [{ quietPins with rst := true, readRsp := true }, { quietPins with rst := true }] }
    s.nextInput.rst = true ∧ s.readFault = none ∧
      ∃ t : State, step s = .next t ∧ t.nextInput.rst = true ∧ t.nextInput.readRsp = false := by
  exact ⟨by decide, by decide, _, rfl, by decide, by decide⟩

/-- A host that offers a request to the idle block. -/
def issuing : State := { State.reset with inputs := [offering (rq 2#8 26#32 max26)] }

theorem witness_AcceptanceCopiesTheRequest :
    issuing.hostQuiet = true ∧ issuing.phase = .idle ∧ issuing.reqReady = true ∧ issuing.nextInput.reqValid = true := by decide

/-- At another edge: an idle host, and a busy block. -/
theorem witness_AcceptanceCopiesTheRequest_other :
    (∃ t, step State.reset = .next t) ∧ State.reset.nextInput.rst = false ∧ State.reset.nextInput.reqValid = false ∧
    ∃ t, step (pend (rq 0#8 16#32 [])) = .next t :=
  ⟨⟨_, rfl⟩, by decide, by decide, ⟨_, rfl⟩⟩

theorem witness_CompletionRunsTheDecodedOperation :
    (pend (rq 2#8 26#32 max26)).hostQuiet = true ∧ (pend (rq 2#8 26#32 max26)).phase = .pending ∧
      (pend (rq 2#8 26#32 max26)).edgesLeft ≤ 1 ∧ decodeCmd (pend (rq 2#8 26#32 max26)).req.cmd = .ok .valid :=
  ⟨by decide, by decide, by decide, rfl⟩

theorem witness_CompletionPresentsCodec :
    (pend (rq 2#8 26#32 max26)).hostQuiet = true ∧ (pend (rq 2#8 26#32 max26)).edgesLeft = 1 ∧
    ({ pend (rq 2#8 26#32 max26) with edgesLeft := 2 } : State).hostQuiet = true ∧
    (∃ t, step (presented (rq 2#8 26#32 max26)) = .next t) ∧ (presented (rq 2#8 26#32 max26)).nextInput.rst = false ∧
    (presented (rq 2#8 26#32 max26)).phase ≠ .pending :=
  ⟨by decide, by decide, by decide, ⟨_, rfl⟩, by decide, by decide⟩

theorem witness_TakeFreesTheBlock :
    let s : State := { presented (rq 2#8 26#32 max26) with inputs := [{ quietPins with rspReady := true }] }
    s.hostQuiet = true ∧ s.rspValid = true ∧ s.nextInput.rspReady = true := by decide

theorem witness_ReadingTheResponseOutsideDoneFaults :
    State.reset.wasReset = true ∧ (presented (rq 2#8 26#32 max26)).wasReset = true ∧
    step { State.reset with wasReset := false, inputs := [{ quietPins with readRsp := true }] } = .fault .rspReadBeforeReset :=
  ⟨by decide, by decide, rfl⟩

theorem witness_ChangedRequestIsRefused :
    let s : State := { presented (rq 0#8 16#32 []) with offer := some (rq 0#8 16#32 []) , inputs := [quietPins] }
    s.wasReset = true ∧ s.nextInput.rst = false ∧ s.offer = some (rq 0#8 16#32 []) ∧ s.nextInput.reqValid = false := by decide

theorem witness_OnlyResetLeavesPowerOn :
    let s : State := { presented (rq 0#8 16#32 []) with wasReset := false, inputs := [{ quietPins with rst := true }] }
    s.wasReset = false ∧ s.nextInput.rst = true ∧ s.nextInput.readRsp = false ∧ ∃ t, step s = .next t := by
  exact ⟨rfl, rfl, rfl, _, rfl⟩

theorem inv_presented (r : Request) (h : (codec r).Shaped) : (presented r).Inv :=
  ⟨rfl, rfl, (fun h => by cases h), fun _ => rfl, fun _ => rfl, h⟩

theorem reset_shaped : State.reset.rsp.Shaped := by decide

theorem inv_reset_with (l : List EdgeInput) : ({ State.reset with inputs := l } : State).Inv :=
  ⟨rfl, rfl, (fun h => by cases h), fun _ => rfl, (fun h => by cases h), reset_shaped⟩

theorem witness_PhaseMovesOnlyInTheCycle :
    (∃ t, step issuing = .next t) ∧ issuing.Inv ∧ issuing.phase = .idle ∧
    (presented (rq 2#8 26#32 max26)).Inv ∧ (presented (rq 2#8 26#32 max26)).phase = .done ∧
    (pend (rq 2#8 26#32 max26)).Inv ∧ (pend (rq 2#8 26#32 max26)).phase = .pending :=
  ⟨⟨_, rfl⟩, inv_reset_with _, rfl, inv_presented _ (by decide), rfl,
    ⟨rfl, rfl, fun _ => ⟨le_rfl, Nat.le_add_left 1 _⟩, fun h => absurd rfl h, (fun h => by cases h), by decide⟩, rfl⟩

theorem witness_PortsFollowTheRegisters : ∃ p, (presented (rq 2#8 26#32 max26)).outputs.rsp = some p := ⟨_, rfl⟩

theorem witness_StepKeepsTheInvariant : issuing.Inv ∧ ∃ t, step issuing = .next t := ⟨inv_reset_with _, _, rfl⟩

/-- A host that makes no move is quiet. -/
theorem rest_quiet (s : State) (hi : s.inputs = []) (hw : s.wasReset = true) : s.hostQuiet = true := by
  rw [hostQuiet_iff]
  have : s.nextInput = EdgeInput.rest s.offer := by unfold State.nextInput; rw [hi]
  rw [this]
  refine ⟨(fun h => by cases h), rfl, hw, ?_⟩
  unfold EdgeInput.keepsOffer EdgeInput.rest
  cases s.offer <;> simp

/-- An edge at a quiet move consumes the pins and nothing resets. -/
theorem quiet_step (s t : State) (hq : s.hostQuiet = true) (h : step s = .next t) :
    t.inputs = s.inputs.tail ∧ t.wasReset = true := by
  have hw := ((hostQuiet_iff s).1 hq).2.2.1
  rw [step_quiet s hq] at h
  obtain ⟨u, e, h'⟩ := handshake_cases Config.latency s.nextInput s.dropInput
  rw [e] at h
  cases h
  rcases h' with ⟨_, _, _, rfl⟩ | ⟨_, _, rfl⟩ | ⟨_, _, rfl⟩ | ⟨_, _, rfl⟩ | ⟨_, _, rfl⟩ | ⟨_, _, rfl⟩ <;> simp [hw]

/-- A quiet move and then no move at all is a quiet host for any number of edges. -/
theorem quietFor_of_one (n : Nat) : ∀ s : State, s.hostQuiet = true → s.inputs.tail = [] → s.quietFor n := by
  induction n with
  | zero => intro s _ _ j hj; omega
  | succ n ih =>
    intro s hq hi j hj u hu
    cases j with
    | zero => rw [reaches_zero] at hu; exact hu ▸ hq
    | succ j =>
      cases hs : step s with
      | next t =>
        obtain ⟨h1, h2⟩ := quiet_step s t hq hs
        rw [hi] at h1
        exact ih t (rest_quiet t h1 h2) (by rw [h1]; rfl) j (by omega) u ((reaches_succ _ _ _ _ hs).1 hu)
      | fault _ => simp [State.reaches, edges, hs] at hu
      | refused _ => simp [State.reaches, edges, hs] at hu

theorem witness_ResponseComesAfterExactlyLatencyEdges :
    issuing.Inv ∧ issuing.phase = .idle ∧ issuing.nextInput.reqValid = true ∧ issuing.quietFor (1 + Config.latency) ∧
    (presented (rq 2#8 26#32 max26)).hostQuiet = true ∧ (presented (rq 2#8 26#32 max26)).nextInput.rspReady = false :=
  ⟨inv_reset_with _, rfl, rfl, quietFor_of_one _ _ (by decide) rfl, by decide, rfl⟩

theorem witness_AcceptancesAreLatencyPlusTwoApart :
    issuing.Inv ∧ issuing.phase = .idle ∧ issuing.nextInput.reqValid = true ∧ issuing.quietFor (1 + Config.latency + 1) ∧
    (presented (rq 2#8 26#32 max26)).Inv ∧ (∃ t, step (presented (rq 2#8 26#32 max26)) = .next t) ∧
    (presented (rq 2#8 26#32 max26)).nextInput.rst = false ∧ (presented (rq 2#8 26#32 max26)).nextInput.rspReady = false :=
  ⟨inv_reset_with _, rfl, rfl, quietFor_of_one _ _ (by decide) rfl, inv_presented _ (by decide), ⟨_, rfl⟩, rfl, rfl⟩

theorem witness_LegalRunsNeverStop : issuing.Inv ∧ ∀ n, issuing.legalFor n :=
  ⟨inv_reset_with _, fun n j hj t ht => by
    have := quietFor_of_one n issuing (by decide) rfl j hj t ht
    unfold State.hostQuiet at this
    rw [Bool.and_eq_true] at this
    exact this.1⟩

theorem witness_ResponsesAnswerRequestsInOrder :
    issuing.Inv ∧ issuing.phase = .idle ∧ (issuing.tally { accepted := [], taken := [] } 1).accepted = [rq 2#8 26#32 max26] :=
  ⟨inv_reset_with _, rfl, rfl⟩

theorem witness_StepRefinesTheTransactionModel :
    issuing.Inv ∧ (∃ t, step issuing = .next t) ∧
    step { State.reset with inputs := [{ quietPins with readRsp := true }] } = .fault .rspReadWhileNotValid ∧
    (TState.mk (.pending (rq 2#8 26#32 max26)) []).phase = .pending (rq 2#8 26#32 max26) :=
  ⟨inv_reset_with _, ⟨_, rfl⟩, rfl, rfl⟩

/-- A reset in flight, at which the host reads the response that is discarded, and after which it offers the same request
again. -/
def reissuing : State :=
  { presented (rq 2#8 26#32 max26) with
    inputs := [{ quietPins with rst := true, readRsp := true }, offering (rq 2#8 26#32 max26)] }

theorem witness_ReissuedRequestGetsTheSameResponse :
    reissuing.Inv ∧ reissuing.phase ≠ .idle ∧ reissuing.nextInput.rst = true ∧ reissuing.rspValid = true ∧
    ∃ t, step reissuing = .next t ∧ t.reaches 0 t ∧ t.phase = .idle ∧ t.nextInput.reqValid = true ∧
      t.nextInput.req = reissuing.req ∧ t.quietFor (1 + Config.latency) :=
  ⟨⟨rfl, rfl, (fun h => by cases h), fun _ => rfl, fun _ => rfl, by decide⟩, by decide, rfl, rfl, _, rfl, rfl, rfl, rfl, rfl,
    quietFor_of_one _ _ (by decide) rfl⟩

theorem witness_StandingOfferIsTheUnacceptedRequest :
    (∃ t, step issuing = .next t) ∧ (∃ t, step reissuing = .next t) ∧
    ∃ t, step { presented (rq 2#8 26#32 max26) with inputs := [offering (rq 0#8 16#32 [])] } = .next t ∧
      t.offer = some (rq 0#8 16#32 []) :=
  ⟨⟨_, rfl⟩, ⟨_, rfl⟩, _, rfl, by decide⟩

/-- V-H1, edges e1 and e2: after the edge that accepts, the host may lower req_valid. -/
theorem test_req_valid_lowered_after_acceptance :
    ∃ t : State, step { State.reset with inputs := [offering (rq 0#8 16#32 []), quietPins] } = .next t ∧
      t.nextInput.reqValid = false ∧ ∃ u : State, step t = .next u := by
  refine ⟨_, rfl, rfl, ?_⟩
  rw [step_quiet _ (by rfl)]
  exact handshake_next _ _ _

/-- The states of the endless run of a host that issues one request. -/
def followed : Nat → State
  | 0 => issuing
  | n + 1 => match step (followed n) with
    | .next t => t
    | _ => followed n

theorem followed_step (n : Nat) (h : (followed n).hostQuiet = true) : step (followed n) = .next (followed (n + 1)) := by
  obtain ⟨t, e⟩ := handshake_next Config.latency (followed n).nextInput (followed n).dropInput
  rw [← step_quiet _ h] at e
  simp [followed, e]

theorem followed_quiet : ∀ n, (followed n).hostQuiet = true ∧ (followed n).inputs.tail = []
  | 0 => by decide
  | n + 1 => by
    obtain ⟨h1, h2⟩ := followed_quiet n
    obtain ⟨h3, h4⟩ := quiet_step _ _ h1 (followed_step n h1)
    rw [h2] at h3
    exact ⟨rest_quiet _ h3 h4, by rw [h3]; rfl⟩

theorem witness_TracesMapToFairTransactionTraces :
    (followed 0).Inv ∧ IsRun followed ∧ (∃ t, step (followed 0) = .next t ∧ t.phase = .pending) ∧
    issuing.reaches 0 issuing ∧
    edges 1 { State.reset with inputs := [{ quietPins with readRsp := true }] } = .fault .rspReadWhileNotValid :=
  ⟨inv_reset_with _, fun n => followed_step n (followed_quiet n).1, ⟨_, rfl, rfl⟩, rfl, rfl⟩

/-- A host that takes what is presented and offers nothing, for as many edges as its list is long. -/
theorem drainsFor_replicate (n : Nat) : ∀ s : State, s.wasReset = true → s.offer = none →
    s.inputs = List.replicate n { quietPins with rspReady := true } → s.drainsFor n := by
  induction n with
  | zero => intro s _ _ _ j hj; omega
  | succ n ih =>
    intro s hw ho hi j hj u hu
    have hn : s.nextInput = { quietPins with rspReady := true } := by unfold State.nextInput; rw [hi]; rfl
    have hq : s.hostQuiet = true := by rw [hostQuiet_iff, hn, ho]; exact ⟨(fun h => by cases h), rfl, hw, rfl⟩
    cases j with
    | zero => rw [reaches_zero] at hu; subst hu; exact ⟨hq, by rw [hn]; rfl, by rw [hn]⟩
    | succ j =>
      obtain ⟨t, e, h⟩ := handshake_cases Config.latency s.nextInput s.dropInput
      have hs : step s = .next t := by rw [step_quiet s hq, e]
      obtain ⟨h1, h2⟩ := quiet_step s t hq hs
      have ht : t.offer = none := by
        rw [hn] at h
        rcases h with ⟨_, b, _⟩ | ⟨_, _, rfl⟩ | ⟨_, _, rfl⟩ | ⟨_, _, rfl⟩ | ⟨_, _, rfl⟩ | ⟨_, _, rfl⟩
        · cases b
        all_goals rfl
      exact ih t h2 ht (by rw [h1, hi]; rfl) j (by omega) u ((reaches_succ _ _ _ _ hs).1 hu)

theorem witness_RunsEndOnlyIdle :
    (TState.mk .idle []).moves [.issue (rq 2#8 26#32 max26), .complete] =
      some { phase := .done (codec (rq 2#8 26#32 max26)), faults := [] } ∧
    (presented (rq 2#8 26#32 max26)).Inv ∧ (presented (rq 2#8 26#32 max26)).phase = .done ∧
    (presented (rq 2#8 26#32 max26)).inputs = [] ∧ (presented (rq 2#8 26#32 max26)).offer = none ∧
    ∃ s : State, s.Inv ∧ s.phase = .done ∧ s.drainsFor (Config.latency + 1) :=
  ⟨rfl, inv_presented _ (by decide), rfl, rfl, rfl,
    { presented (rq 2#8 26#32 max26) with inputs := List.replicate (Config.latency + 1) { quietPins with rspReady := true } },
    inv_presented (rq 2#8 26#32 max26) (by decide), rfl, drainsFor_replicate _ _ rfl rfl rfl⟩

theorem witness_SaturatedLengthIsExact : (2 ^ 32 - 1 : Nat) < 2 ^ 32 ∧ (2 ^ 32 : Nat) ≤ 2 ^ 32 := by decide

theorem witness_LanesCarryTheInput :
    (∃ k : Fin 26, k.val < max26.length) ∧ 26 < (List.replicate 27 0x30#8 : List Byte).length ∧
    (rq 0#8 3#32 [1, 2, 3]).data ≠ (rq 0#8 3#32 [1, 2, 3, 4]).data ∧
    (∀ k : Fin 26, k.val < min (rq 0#8 3#32 [1, 2, 3]).len.toNat 26 →
      (rq 0#8 3#32 [1, 2, 3]).data[k] = (rq 0#8 3#32 [1, 2, 3, 4]).data[k]) :=
  ⟨⟨25, by decide⟩, by decide, by decide, by decide⟩

theorem witness_NotationWritesItsRequests :
    (List.replicate 16 0#8 : List Byte).length = 16 ∧ zeros26.length ≤ 26 ∧
    hostLineRequest? (.valid zeros26) = some (rq 2#8 26#32 zeros26) := by decide

theorem witness_GenerateTextIsAnEncodeThatSucceeds :
    (2 ^ 48 - 1 : Nat) < 2 ^ 48 ∧ (List.replicate 10 0#8 : List Byte).length = 10 ∧ (2 ^ 48 : Nat) ≤ 2 ^ 48 := by decide

end Sys2Proof.Tests
end

section
/-! PROOFS for 10_state.md: the tables, the registers, the shape of a response, the phases and the invariant. -/

namespace Sys2Proof.Machine

open Sys2Proof

/-! ### The two tables (R21 to R24) -/

/-- No two values share a symbol, since the inverse LUT tells them apart (R24). -/
theorem encLut_injective {v w : Sym5} (h : encLut v = encLut w) : v = w := by
  have hp : (true, v) = (true, w) := by rw [← decLut_encLut v, h, decLut_encLut w]
  exact (Prod.mk.inj hp).2

/-- A table over the 5-bit values as a function between linear orders, for Mathlib's facts about `StrictMono`. -/
def tableNat (f : Sym5 → Byte) (v : Fin 32) : Nat := (f (BitVec.ofFin v)).toNat

theorem tableNat_strictMono {f : Sym5 → Byte} (h : ∀ v w : Sym5, v < w → f v < f w) : StrictMono (tableNat f) :=
  fun _ _ hlt => BitVec.lt_def.1 (h _ _ hlt)

theorem tableNat_injective {f g : Sym5 → Byte} (h : tableNat f = tableNat g) : f = g :=
  funext fun v => BitVec.eq_of_toNat_eq (congrFun h v.toFin)

/-- A number is in the range of the table as numbers exactly when it is the number of a byte of the table. -/
theorem mem_range_tableNat (f : Sym5 → Byte) (n : Nat) :
    n ∈ Set.range (tableNat f) ↔ ∃ c : Byte, (∃ v, f v = c) ∧ c.toNat = n := by
  constructor
  · rintro ⟨v, rfl⟩
    exact ⟨_, ⟨_, rfl⟩, rfl⟩
  · rintro ⟨_, ⟨v, rfl⟩, rfl⟩
    exact ⟨v.toFin, rfl⟩

/-- Two tables with the same bytes have the same range as numbers. -/
theorem range_tableNat_eq {f g : Sym5 → Byte} (h : ∀ c : Byte, (∃ v, f v = c) ↔ ∃ v, g v = c) :
    Set.range (tableNat f) = Set.range (tableNat g) := by
  ext n
  simp only [mem_range_tableNat, h]

/-- Symbols compare as their values do (R23). -/
theorem encLut_ofFin_lt_iff (w : Fin 32) (v : Sym5) : encLut (BitVec.ofFin w) < encLut v ↔ w < v.toFin :=
  BitVec.lt_def.trans (tableNat_strictMono encLut_lt).lt_iff_lt

/-- A byte that is no symbol has the entry `(0, 0)` (R22). -/
theorem decLut_of_ne_symbol {c : Byte} (h : ∀ v : Sym5, c ≠ encLut v) : decLut c = (false, 0#5) := by
  have hnone : symbolValue? c = none :=
    List.find?_eq_none.2 fun v _ hv => h (BitVec.ofFin v) (eq_of_beq hv).symm
  unfold decLut
  rw [hnone]

/-- Settles O2: strictly increasing functions from a well-order are equal when their ranges are. -/
theorem encLutIsTheOnlyIncreasingOrder : Obligations.EncLutIsTheOnlyIncreasingOrder := by
  refine ⟨encLut_lt, fun f hf hsame => ?_, fun v => ?_⟩
  · exact tableNat_injective
      (((tableNat_strictMono hf).range_inj (tableNat_strictMono encLut_lt)).1 (range_tableNat_eq hsame))
  · have hbelow : ∀ n : Fin 32, ((List.finRange 32).filter fun m => m < n).length = n.val := by decide
    simp only [encLut_ofFin_lt_iff]
    exact hbelow v.toFin

/-- Settles O1, by the 32 rows of the table. -/
theorem encLutHoldsTheSymbolBytes : Obligations.EncLutHoldsTheSymbolBytes := by
  unfold Obligations.EncLutHoldsTheSymbolBytes
  decide

/-- Settles O3. -/
theorem decLutInvertsEncLut : Obligations.DecLutInvertsEncLut :=
  ⟨decLut_encLut, encLut_of_decLut, fun _ _ => encLut_injective⟩

/-- Settles O4; the ranges of R22 are checked over the 256 bytes. -/
theorem decLutRejectsEveryOtherByte : Obligations.DecLutRejectsEveryOtherByte :=
  ⟨decLut_encLut, fun _ => decLut_of_ne_symbol, by decide⟩

/-! ### The response register (R17, R29, R48) -/

/-- An error response has the shape of a response (R83). -/
theorem errorResponse_shaped (c : Status) : (errorResponse c).Shaped :=
  ⟨.inr (.inr rfl), fun k _ => lanesZero_lane k, nofun, fun _ => rfl⟩

/-- A successful response has the shape of a response if its length, lanes and verdict fit each other. -/
theorem okResponse_shaped {n : BitVec 5} {d : Lanes} {v : Bool} (hn : n = 26#5 ∨ n = 16#5 ∨ n = 0#5)
    (hd : ∀ k : Fin 26, n.toNat ≤ k.val → d[k] = 0#8) (hv : v = true → n = 0#5) : (okResponse n d v).Shaped :=
  ⟨hn, hd, fun h => ⟨rfl, hv h⟩, fun h => absurd rfl h⟩

theorem okResponse_zero_shaped (v : Bool) : (okResponse 0#5 Lanes.zero v).Shaped :=
  okResponse_shaped (.inr (.inr rfl)) (fun k _ => lanesZero_lane k) fun _ => rfl

/-- The stored words after reset are those of an empty answer (log 3). -/
theorem blank_shaped : Response.blank.Shaped := okResponse_zero_shaped false

theorem encodeResponse_shaped (r : Request) : (encodeResponse r).Shaped := by
  obtain ⟨-, e⟩ | ⟨-, e⟩ := encodeResponse_cases r <;> rw [e]
  · exact errorResponse_shaped _
  · exact okResponse_shaped (.inl rfl) (fun k hk => absurd k.isLt (Nat.not_lt.2 hk)) nofun

theorem decodeResponse_shaped (r : Request) : (decodeResponse r).Shaped := by
  obtain ⟨-, e⟩ | ⟨-, -, e⟩ | ⟨-, -, -, e⟩ := decodeResponse_cases r <;> rw [e]
  · exact errorResponse_shaped _
  · exact errorResponse_shaped _
  · exact okResponse_shaped (.inr (.inl rfl)) (fun k hk => binaryLanes_zero _ k hk) nofun

theorem validResponse_shaped (r : Request) : (validResponse r).Shaped := by
  rw [validResponse_cases]
  exact okResponse_zero_shaped _

/-- Every response of Codec has the shape of a response (R17, R48). -/
theorem codec_shaped (r : Request) : (codec r).Shaped := by
  obtain ⟨-, e⟩ | ⟨-, e⟩ | ⟨-, e⟩ | ⟨-, -, -, e⟩ := codec_cases r <;> rw [e]
  · exact encodeResponse_shaped r
  · exact decodeResponse_shaped r
  · exact validResponse_shaped r
  · exact errorResponse_shaped _

/-- `out_len` of ENCODE (R48). -/
theorem encodeResponse_outLen (r : Request) :
    (encodeResponse r).outLen = if (encodeResponse r).status = .ok then 26#5 else 0#5 := by
  obtain ⟨-, e⟩ | ⟨-, e⟩ := encodeResponse_cases r <;> rw [e] <;> rfl

/-- `out_len` of DECODE (R48). -/
theorem decodeResponse_outLen (r : Request) :
    (decodeResponse r).outLen = if (decodeResponse r).status = .ok then 16#5 else 0#5 := by
  obtain ⟨-, e⟩ | ⟨-, -, e⟩ | ⟨-, -, -, e⟩ := decodeResponse_cases r <;> rw [e] <;> rfl

/-- VALID answers no bytes (R78). -/
theorem validResponse_outLen (r : Request) : (validResponse r).outLen = 0#5 := by
  rw [validResponse_cases]; rfl

theorem encodeResponse_verdict (r : Request) : (encodeResponse r).verdict = false := by
  obtain ⟨-, e⟩ | ⟨-, e⟩ := encodeResponse_cases r <;> rw [e] <;> rfl

theorem decodeResponse_verdict (r : Request) : (decodeResponse r).verdict = false := by
  obtain ⟨-, e⟩ | ⟨-, -, e⟩ | ⟨-, -, -, e⟩ := decodeResponse_cases r <;> rw [e] <;> rfl

/-- `out_len` by the operation and the status (R17). -/
theorem codec_outLen (r : Request) :
    (codec r).outLen =
      if r.cmd = 0x00#8 ∧ (codec r).status = .ok then 26#5
      else if r.cmd = 0x01#8 ∧ (codec r).status = .ok then 16#5 else 0#5 := by
  obtain ⟨hc, e⟩ | ⟨hc, e⟩ | ⟨hc, e⟩ | ⟨h0, h1, -, e⟩ := codec_cases r <;> rw [e]
  · simp [hc, encodeResponse_outLen]
  · simp [hc, decodeResponse_outLen]
  · simp [hc, validResponse_outLen]
  · simp [h0, h1, errorResponse]

/-- Only VALID answers verdict 1 (R17). -/
theorem cmd_of_codec_verdict {r : Request} (h : (codec r).verdict = true) : r.cmd = 0x02#8 := by
  obtain ⟨-, e⟩ | ⟨-, e⟩ | ⟨hc, -⟩ | ⟨-, -, -, e⟩ := codec_cases r
  · simp [e, encodeResponse_verdict] at h
  · simp [e, decodeResponse_verdict] at h
  · exact hc
  · simp [e, errorResponse] at h

/-- Settles O29; the lanes are the second clause of the shape every response of Codec has. -/
theorem responseFieldsFitTheirOperation : Obligations.ResponseFieldsFitTheirOperation := by
  intro r
  obtain ⟨-, hlanes, -⟩ := codec_shaped r
  exact ⟨codec_outLen r, hlanes, cmd_of_codec_verdict⟩

/-- Settles O28: completion responds with Codec of the request. -/
theorem responseDependsOnlyOnTheRequest : Obligations.ResponseDependsOnlyOnTheRequest := by
  intro s₁ s₂ h
  exact ⟨_, _, complete_eq s₁, complete_eq s₂, congrArg codec h, rfl⟩

/-! ### Ports and reads of the response (R18, R19, R28) -/

/-- The ports show the response exactly in DONE after the first reset (R19). -/
theorem outputs_rsp (s : State) :
    s.outputs.rsp = if s.wasReset = true ∧ s.phase = .done then some s.rsp.pins else none := by
  simp [State.outputs, State.rspValid]

/-- A read before the first reset is the fault of that name, whatever the phase (R98). -/
theorem readFault_beforeReset (s : State) : s.readFault = some .rspReadBeforeReset ↔ s.wasReset = false := by
  unfold State.readFault; split_ifs <;> simp_all

/-- A read after the first reset and outside DONE is the fault of that name (R19). -/
theorem readFault_whileNotValid (s : State) :
    s.readFault = some .rspReadWhileNotValid ↔ s.wasReset = true ∧ s.rspValid = false := by
  unfold State.readFault; split_ifs <;> simp_all

/-- A step faults exactly when the host's read is a fault. -/
theorem step_fault (s : State) (f : Fault) : step s = .fault f ↔ s.nextInput.readRsp = true ∧ s.readFault = some f :=
  edge_fault Config.latency s.nextInput s.dropInput f

/-- Settles O31. -/
theorem resetLeavesTheBlockIdle : Obligations.ResetLeavesTheBlockIdle :=
  ⟨rfl, rfl, rfl, rfl, rfl, rfl⟩

/-- Settles O37. -/
theorem readingTheResponseOutsideDoneFaults : Obligations.ReadingTheResponseOutsideDoneFaults := by
  refine ⟨fun s hw => ?_, fun s => ?_, fun s hw => ?_⟩
  · simp [step_fault, readFault_whileNotValid, hw]
  · rw [step_fault, readFault_beforeReset]
  · simp [outputs_rsp, hw]

/-! ### What one step can do -/

/-- Everything a step that answers a next state can be: the reset edge (R95), an acceptance (R99), an idle edge, the
completing edge and a counted edge (R101), a take (R102), or a response that waits. -/
theorem step_cases {s t : State} (h : step s = .next t) :
    (s.nextInput.rst = true ∧ t = s.dropInput.applyReset) ∨
    (s.phase = .idle ∧ s.nextInput.reqValid = true ∧ s.reqReady = true ∧
      t = s.dropInput.accept Config.latency s.nextInput.req) ∨
    (s.phase = .idle ∧ ¬ (s.nextInput.reqValid = true ∧ s.reqReady = true) ∧ t = s.dropInput.noteOffer s.nextInput) ∨
    (s.phase = .pending ∧ s.edgesLeft ≤ 1 ∧
      t = ((s.dropInput.noteOffer s.nextInput).countEdge).respond (codec s.req)) ∨
    (s.phase = .pending ∧ 1 < s.edgesLeft ∧ t = (s.dropInput.noteOffer s.nextInput).countEdge) ∨
    (s.phase = .done ∧ s.nextInput.rspReady = true ∧ t = (s.dropInput.noteOffer s.nextInput).take) ∨
    (s.phase = .done ∧ s.nextInput.rspReady = false ∧ t = s.dropInput.noteOffer s.nextInput) := by
  obtain ⟨-, hreset | ⟨-, -, hhandshake⟩⟩ := step_next s t h
  · exact .inl hreset
  · obtain ⟨u, hu, hcases⟩ := handshake_cases Config.latency s.nextInput s.dropInput
    obtain rfl : u = t := Host.Outcome.next.inj (hu.symm.trans hhandshake)
    exact .inr hcases

/-! ### The invariant (R18, R101) -/

/-- Reset meets the invariant (R28). -/
theorem State.reset_inv : State.reset.Inv :=
  ⟨rfl, rfl, nofun, fun _ => rfl, nofun, blank_shaped⟩

/-- A reset edge meets the invariant from any state (R95): it gives the reset state up to the host's pins. -/
theorem State.applyReset_inv (s : State) : s.applyReset.Inv := State.reset_inv

section
variable {s : State}

/-- The pins of the host are no part of the invariant. -/
theorem State.Inv.dropInput (h : s.Inv) : s.dropInput.Inv := h

/-- The standing offer is no part of the invariant. -/
theorem State.Inv.noteOffer (h : s.Inv) (i : EdgeInput) : (s.noteOffer i).Inv := h

/-- An acceptance keeps the invariant: LATENCY, which is at least 1, edges are left (R99, R101). -/
theorem State.Inv.accept (h : s.Inv) (r : Request) : (s.accept Config.latency r).Inv := by
  obtain ⟨hwas, -, -, -, -, hshape⟩ := h
  exact ⟨hwas, rfl, fun _ => ⟨Nat.le_add_left 1 _, le_rfl⟩, fun hp => absurd rfl hp, nofun, hshape⟩

/-- A counted edge that is not the last keeps the invariant (R101). -/
theorem State.Inv.countEdge (h : s.Inv) (hp : s.phase = .pending) (hleft : 1 < s.edgesLeft) : s.countEdge.Inv := by
  obtain ⟨hwas, hbusy, hcount, -, hrsp, hshape⟩ := h
  obtain ⟨-, hmax⟩ := hcount hp
  refine ⟨hwas, hbusy, fun _ => ?_, fun hne => absurd hp hne, hrsp, hshape⟩
  rw [State.countEdge_edgesLeft]
  omega

/-- The completing edge keeps the invariant: it presents Codec of the request with no edge left (R101). -/
theorem State.Inv.respond_codec (h : s.Inv) (hp : s.phase = .pending) (hleft : s.edgesLeft ≤ 1) :
    (s.countEdge.respond (codec s.req)).Inv := by
  obtain ⟨hwas, hbusy, -, -, -, -⟩ := h
  rw [hp] at hbusy
  exact ⟨hwas, hbusy, nofun, fun _ => Nat.sub_eq_zero_of_le hleft, fun _ => rfl, codec_shaped _⟩

/-- A take keeps the invariant (R102). -/
theorem State.Inv.take (h : s.Inv) (hp : s.phase = .done) : s.take.Inv := by
  obtain ⟨hwas, -, -, hzero, -, hshape⟩ := h
  exact ⟨hwas, rfl, nofun, fun _ => hzero (by rw [hp]; decide), nofun, hshape⟩

end

/-- Settles O42. -/
theorem invariantHoldsAtReset : Obligations.InvariantHoldsAtReset := State.reset_inv

/-- Settles O43, by the edges a step can be. -/
theorem stepKeepsTheInvariant : Obligations.StepKeepsTheInvariant := by
  intro s t hs h
  have hnote : (s.dropInput.noteOffer s.nextInput).Inv := hs.dropInput.noteOffer _
  obtain ⟨-, rfl⟩ | ⟨-, -, -, rfl⟩ | ⟨-, -, rfl⟩ | ⟨hp, hleft, rfl⟩ | ⟨hp, hleft, rfl⟩ | ⟨hp, -, rfl⟩ | ⟨-, -, rfl⟩ :=
    step_cases h
  · exact State.applyReset_inv _
  · exact hs.dropInput.accept _
  · exact hnote
  · exact hnote.respond_codec hp hleft
  · exact hnote.countEdge hp hleft
  · exact hnote.take hp
  · exact hnote

/-- The moves of the phase (R18). -/
theorem step_phase {s t : State} (h : step s = .next t) :
    t.phase = s.phase ∨ (s.phase = .idle ∧ t.phase = .pending ∧ s.nextInput.reqValid = true ∧ s.reqReady = true) ∨
    (s.phase = .pending ∧ t.phase = .done ∧ s.edgesLeft ≤ 1) ∨
    (s.phase = .done ∧ t.phase = .idle ∧ s.nextInput.rspReady = true) ∨ (t.phase = .idle ∧ s.nextInput.rst = true) := by
  obtain ⟨hrst, rfl⟩ | ⟨hp, hvalid, hready, rfl⟩ | ⟨-, -, rfl⟩ | ⟨hp, hleft, rfl⟩ | ⟨-, -, rfl⟩ | ⟨hp, htake, rfl⟩ |
    ⟨-, -, rfl⟩ := step_cases h
  · exact .inr (.inr (.inr (.inr ⟨rfl, hrst⟩)))
  · exact .inr (.inl ⟨hp, rfl, hvalid, hready⟩)
  · exact .inl rfl
  · exact .inr (.inr (.inl ⟨hp, rfl, hleft⟩))
  · exact .inl rfl
  · exact .inr (.inr (.inr (.inl ⟨hp, rfl, htake⟩)))
  · exact .inl rfl

/-- The ports are a function of the two handshake outputs, the response register and the power-on bit (R18). -/
theorem outputs_congr {s u : State} (hready : s.reqReady = u.reqReady) (hvalid : s.rspValid = u.rspValid)
    (hrsp : s.rsp = u.rsp) (hwas : s.wasReset = u.wasReset) : s.outputs = u.outputs := by
  unfold State.outputs
  rw [hready, hvalid, hrsp, hwas]

/-- Settles O40. -/
theorem phaseMovesOnlyInTheCycle : Obligations.PhaseMovesOnlyInTheCycle := by
  refine ⟨fun s t => step_phase, fun s hs => ?_, fun s u => outputs_congr⟩
  obtain ⟨-, hbusy, -⟩ := hs
  unfold State.rspValid
  rw [hbusy]
  refine ⟨fun hp => ?_, fun hp => ?_, fun hp => ?_⟩ <;> rw [hp] <;> decide

end Sys2Proof.Machine
end

section
/-! PROOFS for 20_memory.md: what an operation reads and writes (R36, R38), and the order of the responses (R39). -/

namespace Sys2Proof.Machine

open Sys2Proof

/-! ### What an operation reads and writes (R36, R38) -/

/-- The response of an operation to a request (R59, R67, R76). -/
def opResponse : Instr → Request → Response
  | .encode => encodeResponse
  | .decode => decodeResponse
  | .valid => validResponse

/-- An operation responds to the request register and does nothing else (R38). -/
theorem exec_eq (i : Instr) (s : State) : exec i s = .next (s.respond (opResponse i s.req)) := by
  cases i <;> rfl

/-- ENCODE's operand takes lanes 0..15 only (R50). -/
theorem binaryOperand_congr {d e : Lanes} (h : ∀ k : Fin 26, k.val < 16 → d[k] = e[k]) :
    binaryOperand d = binaryOperand e := by
  have hlane : ∀ (k : Nat) (hk : k < 16), d[k]'(by omega) = e[k]'(by omega) := fun k hk => h ⟨k, by omega⟩ hk
  simp (disch := omega) only [binaryOperand, hlane]

section
variable {r q : Request} (hlen : r.len = q.len)
include hlen

/-- ENCODE reads lanes 0..15 only, and none where the length is wrong (R36, R47). -/
theorem encodeResponse_congr (hdata : r.len = 16#32 → ∀ k : Fin 26, k.val < 16 → r.data[k] = q.data[k]) :
    encodeResponse r = encodeResponse q := by
  unfold encodeResponse
  rw [← hlen]
  by_cases h : r.len = 16#32
  · rw [binaryOperand_congr (hdata h)]
  · rw [if_pos h, if_pos h]

/-- DECODE reads no lane where the length is wrong (R36, R47). -/
theorem decodeResponse_congr (hdata : r.len = 26#32 → r.data = q.data) : decodeResponse r = decodeResponse q := by
  unfold decodeResponse
  rw [← hlen]
  by_cases h : r.len = 26#32
  · rw [hdata h]
  · rw [if_pos h, if_pos h]

/-- VALID reads no lane where the length is wrong (R36, R47). -/
theorem validResponse_congr (hdata : r.len = 26#32 → r.data = q.data) : validResponse r = validResponse q := by
  unfold validResponse
  rw [← hlen]
  by_cases h : r.len = 26#32
  · rw [hdata h]
  · rw [if_pos h, if_pos h]

/-- Two requests get the same response of an operation if they agree on the length, and at the operation's length on the
lanes it reads (R36). -/
theorem opResponse_congr (i : Instr)
    (hdata : r.len = (if i = .encode then 16#32 else 26#32) →
      ∀ k : Fin 26, (i = .encode → k.val < 16) → r.data[k] = q.data[k]) :
    opResponse i r = opResponse i q := by
  cases i with
  | encode => exact encodeResponse_congr hlen fun h k hk => hdata h k fun _ => hk
  | decode => exact decodeResponse_congr hlen fun h => Vector.ext fun k hk => hdata h ⟨k, hk⟩ nofun
  | valid => exact validResponse_congr hlen fun h => Vector.ext fun k hk => hdata h ⟨k, hk⟩ nofun

end

/-- `out_len` of a success by the operation (R48). -/
theorem opResponse_outLen_of_ok (i : Instr) (r : Request) :
    (opResponse i r).status = .ok →
      (opResponse i r).outLen = match i with | .encode => 26#5 | .decode => 16#5 | .valid => 0#5 := by
  intro h
  cases i with
  | encode => exact (encodeResponse_outLen r).trans (if_pos h)
  | decode => exact (decodeResponse_outLen r).trans (if_pos h)
  | valid => exact validResponse_outLen r

/-- Settles O27: two states with the same operands for the operation get the same response. -/
theorem operationsReadOnlyTheirLanes : Obligations.OperationsReadOnlyTheirLanes := by
  intro i s₁ s₂ hlen hdata
  exact ⟨_, _, exec_eq i s₁, exec_eq i s₂, opResponse_congr hlen i hdata, opResponse_outLen_of_ok i s₁.req⟩

/-- Settles O30: the next state is `respond` of the response. -/
theorem operationsWriteOnlyTheResponse : Obligations.OperationsWriteOnlyTheResponse := by
  intro i s t h
  obtain rfl : s.respond (opResponse i s.req) = t := Host.Outcome.next.inj ((exec_eq i s).symm.trans h)
  exact ⟨rfl, rfl, rfl, rfl, rfl, rfl, rfl⟩

/-! ### The order of the responses (R39) -/

section
variable {s : State} {i : EdgeInput}

/-- A reset edge makes the step Reset, whatever the phase (R95). -/
theorem State.edgeMoves_reset (hrst : i.rst = true) : s.edgeMoves i = [.reset] := if_pos hrst

theorem State.edgeMoves_idle (hrst : i.rst = false) (hp : s.phase = .idle) :
    s.edgeMoves i = if i.reqValid && s.reqReady then [.issue i.req] else [] := by
  simp [State.edgeMoves, hrst, hp]

theorem State.edgeMoves_pending (hrst : i.rst = false) (hp : s.phase = .pending) :
    s.edgeMoves i = if s.edgesLeft ≤ 1 then [.complete] else [] := by
  simp [State.edgeMoves, hrst, hp]

theorem State.edgeMoves_done (hrst : i.rst = false) (hp : s.phase = .done) :
    s.edgeMoves i = if i.rspReady then [.take] else [] := by
  simp [State.edgeMoves, hrst, hp]

end

/-- A step at an edge with reset is the reset (R95). -/
theorem eq_applyReset_of_step {s t : State} (h : step s = .next t) (hrst : s.nextInput.rst = true) :
    t = s.dropInput.applyReset := by
  obtain ⟨-, ⟨-, ht⟩ | ⟨hno, -⟩⟩ := step_next s t h
  · exact ht
  · rw [hrst] at hno; cases hno

/-- The step of R107 that an edge makes, with what it does to the phase and the two registers: a reset, an acceptance, a
completion, a take, or no step. -/
theorem step_edgeMoves {s t : State} (h : step s = .next t) :
    (s.edgeMoves s.nextInput = [.reset] ∧ t.phase = .idle) ∨
    (s.edgeMoves s.nextInput = [.issue t.req] ∧ s.phase = .idle ∧ t.phase = .pending) ∨
    (s.edgeMoves s.nextInput = [.complete] ∧ s.phase = .pending ∧ t.phase = .done ∧ t.req = s.req ∧ t.rsp = codec s.req) ∨
    (s.edgeMoves s.nextInput = [.take] ∧ s.phase = .done ∧ t.phase = .idle) ∨
    (s.edgeMoves s.nextInput = [] ∧ t.phase = s.phase ∧ t.req = s.req ∧ t.rsp = s.rsp) := by
  cases hrst : s.nextInput.rst with
  | true =>
    obtain rfl := eq_applyReset_of_step h hrst
    exact .inl ⟨State.edgeMoves_reset hrst, rfl⟩
  | false =>
    obtain ⟨hreset, -⟩ | ⟨hp, hvalid, hready, rfl⟩ | ⟨hp, hno, rfl⟩ | ⟨hp, hleft, rfl⟩ | ⟨hp, hleft, rfl⟩ |
      ⟨hp, htake, rfl⟩ | ⟨hp, hwait, rfl⟩ := step_cases h
    · rw [hrst] at hreset; cases hreset
    · refine .inr (.inl ⟨?_, hp, rfl⟩)
      simp [State.edgeMoves_idle hrst hp, hvalid, hready]
    · refine .inr (.inr (.inr (.inr ⟨?_, rfl, rfl, rfl⟩)))
      simp [State.edgeMoves_idle hrst hp, hno]
    · refine .inr (.inr (.inl ⟨?_, hp, rfl, rfl, rfl⟩))
      rw [State.edgeMoves_pending hrst hp, if_pos hleft]
    · refine .inr (.inr (.inr (.inr ⟨?_, rfl, rfl, rfl⟩)))
      rw [State.edgeMoves_pending hrst hp, if_neg (Nat.not_le.2 hleft)]
    · refine .inr (.inr (.inr (.inl ⟨?_, hp, rfl⟩)))
      rw [State.edgeMoves_done hrst hp, if_pos htake]
    · refine .inr (.inr (.inr (.inr ⟨?_, rfl, rfl, rfl⟩)))
      simp [State.edgeMoves_done hrst hp, hwait]

/-- The request accepted whose response is not yet taken: the one in `req` outside IDLE (R18). -/
def State.outstanding (s : State) : List Request := if s.phase = .idle then [] else [s.req]

theorem State.outstanding_idle {s : State} (h : s.phase = .idle) : s.outstanding = [] := if_pos h

theorem State.outstanding_busy {s : State} (h : s.phase ≠ .idle) : s.outstanding = [s.req] := if_neg h

/-- At most one request is in flight (R39). -/
theorem State.outstanding_length_le (s : State) : s.outstanding.length ≤ 1 := by
  unfold State.outstanding
  split_ifs <;> simp

/-- The outstanding request stands in the phase and in `req`. -/
theorem State.outstanding_congr {s t : State} (hphase : t.phase = s.phase) (hreq : t.req = s.req) :
    t.outstanding = s.outstanding := by
  unfold State.outstanding
  rw [hphase, hreq]

/-- The tally fits the state: the responses taken and the one outstanding answer the requests accepted, in order (R39). -/
structure State.Fits (s : State) (y : Tally) : Prop where
  inv : s.Inv
  answers : y.accepted.map codec = y.taken ++ s.outstanding.map codec

/-- An edge keeps the fit: an acceptance makes its request outstanding, a take takes the response of the outstanding
request, and a reset forgets everything. -/
theorem State.Fits.step {s t : State} {y : Tally} (hfit : s.Fits y) (h : step s = .next t) :
    t.Fits (y.afterEdge s.nextInput s) := by
  obtain ⟨hinv, hy⟩ := hfit
  refine ⟨stepKeepsTheInvariant s t hinv h, ?_⟩
  unfold Tally.afterEdge
  obtain ⟨hm, ht⟩ | ⟨hm, hs, ht⟩ | ⟨hm, hs, ht, hreq, -⟩ | ⟨hm, hs, ht⟩ | ⟨hm, hphase, hreq, -⟩ := step_edgeMoves h <;>
    rw [hm]
  · rw [State.outstanding_idle ht]; rfl
  · rw [State.outstanding_idle hs] at hy
    rw [State.outstanding_busy (by rw [ht]; decide)]
    simp [hy]
  · rw [State.outstanding_busy (by rw [hs]; decide)] at hy
    rw [State.outstanding_busy (by rw [ht]; decide), hreq]
    exact hy
  · obtain ⟨-, -, -, -, hrsp, -⟩ := hinv
    rw [State.outstanding_busy (by rw [hs]; decide)] at hy
    rw [State.outstanding_idle ht, hrsp hs]
    simp [hy]
  · rw [State.outstanding_congr hphase hreq]; exact hy

/-- What holds of a state and a tally and is kept by every edge holds at the end of a run. -/
theorem tally_induction {P : State → Tally → Prop}
    (hstep : ∀ s t y, P s y → step s = .next t → P t (y.afterEdge s.nextInput s)) (n : Nat) :
    ∀ (s : State) (y : Tally), P s y → ∃ u, P u (s.tally y n) := by
  induction n with
  | zero => exact fun s y h => ⟨s, h⟩
  | succ n ih =>
    intro s y h
    unfold State.tally
    cases hs : step s with
    | next t => exact ih t _ (hstep s t y h hs)
    | fault f => exact ⟨s, h⟩
    | refused r => exact ⟨s, h⟩

/-- Settles O47: the tally of a run fits the state it ends in, and at most one request is outstanding there. -/
theorem responsesAnswerRequestsInOrder : Obligations.ResponsesAnswerRequestsInOrder := by
  intro s n hinv hidle y
  have hstart : s.Fits { accepted := [], taken := [] } := ⟨hinv, by rw [State.outstanding_idle hidle]; rfl⟩
  obtain ⟨u, -, hy⟩ := tally_induction (fun _ _ _ => State.Fits.step) n s _ hstart
  have hlen : y.accepted.length = y.taken.length + u.outstanding.length := by
    simpa using congrArg List.length hy
  have hone := u.outstanding_length_le
  refine ⟨?_, by omega, by omega⟩
  rw [List.map_take, hy, List.take_left]

end Sys2Proof.Machine
end

section
/-! PROOFS for 30_encoding.md: numbers by their digits, ENCODE's operand, the fields, the aligner, commands and the host's
side of a request. -/

namespace Sys2Proof.Machine

open Sys2Proof

/-! ### Numbers by their digits -/

/-- The number with the digits `f` in base `b`, the first digit the most significant (R8, R9). -/
def ofDigitsBE (b : Nat) {n : Nat} (f : Fin n → Nat) : Nat := Fin.foldl n (fun v k => v * b + f k) 0

theorem bytesValue_eq (d : Lanes) : bytesValue d = ofDigitsBE 256 fun k : Fin 16 => d[k.val].toNat := rfl

theorem fieldsValue_eq (g : Fin 26 → Nat) : fieldsValue g = ofDigitsBE 32 g := rfl

/-- The last digit has the weight 1. -/
theorem ofDigitsBE_succ (b : Nat) {n : Nat} (f : Fin (n + 1) → Nat) :
    ofDigitsBE b f = ofDigitsBE b (fun k => f k.castSucc) * b + f (Fin.last n) :=
  Fin.foldl_succ_last _ _

section
variable {b : Nat}

/-- The digits above the last one are the number divided by the base. -/
theorem ofDigitsBE_div {n : Nat} {f : Fin (n + 1) → Nat} (hf : ∀ k, f k < b) :
    ofDigitsBE b f / b = ofDigitsBE b fun k => f k.castSucc := by
  have hlast := hf (Fin.last n)
  rw [ofDigitsBE_succ, Nat.add_comm, Nat.add_mul_div_right _ _ (by omega), Nat.div_eq_of_lt hlast, Nat.zero_add]

/-- The digits above the last `m` are the number divided by their weight. -/
theorem ofDigitsBE_div_pow {n : Nat} (m : Nat) {f : Fin (n + m) → Nat} (hf : ∀ k, f k < b) :
    ofDigitsBE b f / b ^ m = ofDigitsBE b fun k : Fin n => f (k.castAdd m) := by
  induction m with
  | zero => rw [Nat.pow_zero, Nat.div_one]; rfl
  | succ m ih =>
    rw [Nat.pow_succ', ← Nat.div_div_eq_div_mul, ofDigitsBE_div hf]
    exact ih fun k => hf _

/-- One more digit below raises the weight of a digit by the base. -/
theorem weight_castSucc {n : Nat} (k : Fin n) : b ^ (n + 1 - 1 - k.val) = b * b ^ (n - 1 - k.val) := by
  rw [← Nat.pow_succ']
  congr 1
  omega

/-- Each digit is the number divided by the digit's weight, modulo the base. -/
theorem ofDigitsBE_digit {n : Nat} {f : Fin n → Nat} (hf : ∀ k, f k < b) (k : Fin n) :
    ofDigitsBE b f / b ^ (n - 1 - k.val) % b = f k := by
  induction n with
  | zero => exact k.elim0
  | succ n ih =>
    cases k using Fin.lastCases with
    | last =>
      rw [Fin.val_last, Nat.add_sub_cancel, Nat.sub_self, Nat.pow_zero, Nat.div_one, ofDigitsBE_succ, Nat.mul_add_mod',
        Nat.mod_eq_of_lt (hf _)]
    | cast k =>
      rw [Fin.val_castSucc, weight_castSucc, ← Nat.div_div_eq_div_mul, ofDigitsBE_div hf]
      exact ih (fun k => hf _) k

/-- The last `n` digits of a number put together again are the number modulo the weight of the digit above them. -/
theorem ofDigitsBE_of_digits (v n : Nat) : (ofDigitsBE b fun k : Fin n => v / b ^ (n - 1 - k.val) % b) = v % b ^ n := by
  induction n generalizing v with
  | zero => rw [Nat.pow_zero, Nat.mod_one]; rfl
  | succ n ih =>
    rw [ofDigitsBE_succ]
    simp only [Fin.val_castSucc, weight_castSucc, ← Nat.div_div_eq_div_mul, ih]
    rw [Fin.val_last, Nat.add_sub_cancel, Nat.sub_self, Nat.pow_zero, Nat.div_one, Nat.pow_succ', Nat.mod_mul]
    ring

end

/-! ### ENCODE's operand (R50) -/

/-- V as a number (R50). The concatenations are turned into sums while the widths still stand as sums. -/
theorem binaryOperand_toNat (d : Lanes) : (binaryOperand d).toNat = bytesValue d := by
  rw [binaryOperand]
  refine (toNat_concat _ _).trans ?_
  simp only [toNat_concat]
  simp [bytesValue, Fin.foldl_succ_last]

/-- Byte j of V is lane j (R50, R53). -/
theorem binaryByte_binaryOperand (d : Lanes) (j : Fin 16) : binaryByte (binaryOperand d) j.val = d[j.val] := by
  apply BitVec.eq_of_toNat_eq
  rw [binaryByte, BitVec.extractLsb'_toNat, binaryOperand_toNat, Nat.shiftRight_eq_div_pow,
    show 120 - 8 * j.val = 8 * (16 - 1 - j.val) by omega, Nat.pow_mul]
  exact ofDigitsBE_digit (f := fun k : Fin 16 => d[k.val].toNat) (fun k => d[k.val].isLt) j

/-! ### The fields (R52) -/

/-- F[0] is the top 3 bits (R52, R60). -/
theorem field_zero (v : Ulid) : field v 0 = (v.extractLsb' 125 3).setWidth 5 := rfl

theorem field_pos (v : Ulid) {k : Fin 26} (hk : k.val ≠ 0) : field v k = v.extractLsb' (125 - 5 * k.val) 5 := if_neg hk

/-- Each field by shift and mask (R52). -/
theorem field_toNat (v : Ulid) (k : Fin 26) : (field v k).toNat = fieldOf v.toNat k := by
  unfold field fieldOf
  split
  · next hk =>
    rw [BitVec.toNat_setWidth_of_le (by decide), BitVec.extractLsb'_toNat, Nat.shiftRight_eq_div_pow, hk]
  · rw [BitVec.extractLsb'_toNat, Nat.shiftRight_eq_div_pow]

/-- Below 2^128 each field is a digit in base 32: the 3-bit F[0] needs no mask of its own (R52). -/
theorem fieldOf_eq_digit {v : Nat} (hv : v < 2 ^ 128) (k : Fin 26) : fieldOf v k = v / 32 ^ (26 - 1 - k.val) % 32 := by
  have hweight : (2 : Nat) ^ (125 - 5 * k.val) = 32 ^ (26 - 1 - k.val) := by
    rw [show 125 - 5 * k.val = 5 * (26 - 1 - k.val) by omega, Nat.pow_mul]
  unfold fieldOf
  rw [hweight]
  split
  · next hk => rw [hk]; omega
  · rfl

/-- The fields of a 128-bit number put together again are the number (R52). -/
theorem fieldsValue_fieldOf {v : Nat} (hv : v < 2 ^ 128) : fieldsValue (fieldOf v) = v := by
  rw [fieldsValue_eq, funext (fieldOf_eq_digit hv), ofDigitsBE_of_digits, Nat.mod_eq_of_lt (by omega)]

/-- 26 values, the first below 8, make a number of 3 + 25×5 = 128 bits (R52). -/
theorem fieldsValue_lt {g : Fin 26 → Nat} (hg : ∀ k, g k < 32) (h0 : g 0 < 8) : fieldsValue g < 2 ^ 128 := by
  have htop : fieldsValue g / 32 ^ 25 = g 0 :=
    (ofDigitsBE_div_pow (n := 1) 25 hg).trans (by simp [ofDigitsBE, Fin.foldl_succ_last])
  omega

/-- The fields of a number made of 26 values, the first below 8, are the values (R54). -/
theorem fieldOf_fieldsValue {g : Fin 26 → Nat} (hg : ∀ k, g k < 32) (h0 : g 0 < 8) (k : Fin 26) :
    fieldOf (fieldsValue g) k = g k := by
  rw [fieldOf_eq_digit (fieldsValue_lt hg h0)]
  exact ofDigitsBE_digit hg k

/-! ### Slices -/

/-- A slice that lies within another slice is a slice of it. -/
theorem extractLsb'_within {w : Nat} (x : BitVec w) (s l : Nat) {o n : Nat} (h : o + n ≤ l) :
    x.extractLsb' (s + o) n = (x.extractLsb' s l).extractLsb' o n := by
  ext i hi
  have hlt : o + i < l := by omega
  simp [hlt, Nat.add_assoc]

section
variable (b : Lanes)

/-- Bits of V that lie in one byte are bits of its lane (R53). -/
theorem binaryOperand_slice (j : Nat) {s n : Nat} (o : Nat) (hj : j < 16 := by omega)
    (hs : s = 120 - 8 * j + o := by omega) (ho : o + n ≤ 8 := by omega) :
    (binaryOperand b).extractLsb' s n = b[j].extractLsb' o n := by
  subst hs
  rw [extractLsb'_within _ _ 8 ho]
  exact congrArg (BitVec.extractLsb' o n) (binaryByte_binaryOperand b ⟨j, hj⟩)

/-- Bits of V that cross from a byte into the next are the low bits of its lane and the top bits of the next (R53). -/
theorem binaryOperand_straddle (j : Nat) {s : Nat} (m n : Nat) (hj : j < 15 := by omega)
    (hs : s + n = 120 - 8 * j := by omega) (hm : m ≤ 8 := by omega) (hn : n ≤ 8 := by omega) :
    (binaryOperand b).extractLsb' s (m + n) = b[j].extractLsb' 0 m ++ b[j + 1].extractLsb' (8 - n) n := by
  rw [← BitVec.extractLsb'_append_extractLsb'_eq_extractLsb' hs.symm,
    binaryOperand_slice b j 0, binaryOperand_slice b (j + 1) (8 - n)]

end

/-! ### The aligner (R54) -/

/-- The value that the aligner packs in place k: all of G[k], but of G[0] only the low 3 bits (R54). -/
def packedDigit (g : Fields) (k : Fin 26) : Nat := if k.val = 0 then g[k].toNat % 8 else g[k].toNat

section
variable (g : Fields)

theorem packedDigit_zero : packedDigit g 0 = g[0].toNat % 8 := rfl

theorem packedDigit_pos {k : Fin 26} (hk : k.val ≠ 0) : packedDigit g k = g[k].toNat := if_neg hk

theorem packedDigit_lt (k : Fin 26) : packedDigit g k < 32 := by
  have hlt := g[k].isLt
  unfold packedDigit
  split <;> omega

/-- The packed value as a number (R54). -/
theorem align_toNat : (align g).toNat = fieldsValue (packedDigit g) := by
  rw [align]
  refine (toNat_concat _ _).trans ?_
  simp only [toNat_concat]
  simp [fieldsValue, packedDigit, Fin.foldl_succ_last]

/-- Extraction from a packed value gives the digits packed (R54). -/
theorem field_align_toNat (k : Fin 26) : (field (align g) k).toNat = packedDigit g k := by
  rw [field_toNat, align_toNat]
  exact fieldOf_fieldsValue (packedDigit_lt g) (Nat.mod_lt _ (by decide)) k

theorem field_align_pos {k : Fin 26} (hk : k.val ≠ 0) : field (align g) k = g[k] := by
  apply BitVec.eq_of_toNat_eq
  rw [field_align_toNat, packedDigit_pos g hk]

/-- The top 3 bits of a packed value are the low 3 bits of G[0] (R54). -/
theorem align_top : (align g).extractLsb' 125 3 = g[0].extractLsb' 0 3 := by
  apply BitVec.eq_of_toNat_eq
  have h := field_align_toNat g 0
  rw [field_zero, BitVec.toNat_setWidth_of_le (by decide), packedDigit_zero] at h
  rw [h, BitVec.extractLsb'_toNat, Nat.shiftRight_zero]

/-- Place k of a packed value below the top is G[k] (R54). -/
theorem align_place (k : Nat) {s : Nat} (hk : k < 26 := by omega) (hpos : k ≠ 0 := by omega)
    (hs : s = 125 - 5 * k := by omega) : (align g).extractLsb' s 5 = g[k] := by
  subst hs
  exact (field_pos (align g) hpos).symm.trans (field_align_pos g (k := ⟨k, hk⟩) hpos)

/-- Bits of a packed value that lie in one place are bits of the value packed there (R54). -/
theorem align_slice (k : Nat) {s n : Nat} (o : Nat) (hk : k < 26 := by omega) (hs : s = 125 - 5 * k + o := by omega)
    (ho : o + n ≤ 5 := by omega) (htop : k = 0 → o + n ≤ 3 := by omega) : (align g).extractLsb' s n = g[k].extractLsb' o n := by
  subst hs
  by_cases hpos : k = 0
  · subst hpos
    rw [extractLsb'_within _ _ 3 (htop rfl), align_top, ← extractLsb'_within _ _ 3 (htop rfl), Nat.zero_add]
  · rw [extractLsb'_within _ _ 5 ho, align_place g k hk hpos]

/-! ### The bytes of a packed value: eight places fill five bytes (R54) -/

theorem alignByte_five_mul (q : Nat) (hq : q < 4 := by decide) :
    binaryByte (align g) (5 * q) = g[8 * q].extractLsb' 0 3 ++ g[8 * q + 1] := by
  rw [binaryByte, ← BitVec.extractLsb'_append_extractLsb'_eq_extractLsb' (len₂ := 3) (len₁ := 5) rfl,
    align_slice g (8 * q) 0, align_place g (8 * q + 1)]

theorem alignByte_five_mul_add_one (q : Nat) (hq : q < 3 := by decide) :
    binaryByte (align g) (5 * q + 1) = g[8 * q + 2] ++ g[8 * q + 3].extractLsb' 2 3 := by
  rw [binaryByte, ← BitVec.extractLsb'_append_extractLsb'_eq_extractLsb' (len₂ := 5) (len₁ := 3) rfl,
    align_place g (8 * q + 2), align_slice g (8 * q + 3) 2]

theorem alignByte_five_mul_add_two (q : Nat) (hq : q < 3 := by decide) :
    binaryByte (align g) (5 * q + 2) = g[8 * q + 3].extractLsb' 0 2 ++ g[8 * q + 4] ++ g[8 * q + 5].extractLsb' 4 1 := by
  rw [binaryByte, ← BitVec.extractLsb'_append_extractLsb'_eq_extractLsb' (len₂ := 2 + 5) (len₁ := 1) rfl,
    ← BitVec.extractLsb'_append_extractLsb'_eq_extractLsb' (len₂ := 2) (len₁ := 5) rfl,
    align_slice g (8 * q + 3) 0, align_place g (8 * q + 4), align_slice g (8 * q + 5) 4]

theorem alignByte_five_mul_add_three (q : Nat) (hq : q < 3 := by decide) :
    binaryByte (align g) (5 * q + 3) = g[8 * q + 5].extractLsb' 0 4 ++ g[8 * q + 6].extractLsb' 1 4 := by
  rw [binaryByte, ← BitVec.extractLsb'_append_extractLsb'_eq_extractLsb' (len₂ := 4) (len₁ := 4) rfl,
    align_slice g (8 * q + 5) 0, align_slice g (8 * q + 6) 1]

theorem alignByte_five_mul_add_four (q : Nat) (hq : q < 3 := by decide) :
    binaryByte (align g) (5 * q + 4) = g[8 * q + 6].extractLsb' 0 1 ++ g[8 * q + 7] ++ g[8 * q + 8].extractLsb' 3 2 := by
  rw [binaryByte, ← BitVec.extractLsb'_append_extractLsb'_eq_extractLsb' (len₂ := 1 + 5) (len₁ := 2) rfl,
    ← BitVec.extractLsb'_append_extractLsb'_eq_extractLsb' (len₂ := 1) (len₁ := 5) rfl,
    align_slice g (8 * q + 6) 0, align_place g (8 * q + 7), align_slice g (8 * q + 8) 3]

/-- The fields of a value are packed whole: F[0] has 3 bits (R52, R54). -/
theorem packedDigit_fields (v : Ulid) (k : Fin 26) : packedDigit (fields v) k = fieldOf v.toNat k := by
  unfold packedDigit
  rw [fields_lane, field_toNat]
  split
  · next hk => unfold fieldOf; rw [if_pos hk, Nat.mod_mod]
  · rfl

/-- Packing undoes extraction (R54). -/
theorem align_fields (v : Ulid) : align (fields v) = v := by
  apply BitVec.eq_of_toNat_eq
  rw [align_toNat, funext (packedDigit_fields v), fieldsValue_fieldOf v.isLt]

/-- Where G[0] fits 3 bits every value is packed whole (R54). -/
theorem packedDigit_of_fits (h : g[0] ≤ 7#5) (k : Fin 26) : packedDigit g k = g[k].toNat := by
  unfold packedDigit
  split
  · next hk =>
    obtain rfl : k = 0 := Fin.ext hk
    exact Nat.mod_eq_of_lt (Nat.lt_succ_of_le (BitVec.le_def.1 h))
  · rfl

/-- Extraction undoes packing where G[0] fits 3 bits (R54). -/
theorem fields_align (h : g[0] ≤ 7#5) : fields (align g) = g := by
  refine Vector.ext fun k hk => BitVec.eq_of_toNat_eq ?_
  have hlane := fields_lane (align g) ⟨k, hk⟩
  rw [Fin.getElem_fin] at hlane
  rw [hlane, field_align_toNat, packedDigit_of_fits g h]
  rfl

end

/-- DECODE succeeds only on a text whose first symbol fits 3 bits (R69, log 10). -/
theorem first_le_of_decode_ok {r : Request} (h : (decodeResponse r).status = .ok) : symValue r.data[0] ≤ 7#5 := by
  obtain ⟨-, e⟩ | ⟨-, -, e⟩ | ⟨-, -, hfits, -⟩ := decodeResponse_cases r
  · rw [e] at h; cases h
  · rw [e] at h; cases h
  · exact (firstSymbolFits_iff _).1 hfits

/-! ### The statements on the operand, the fields and the aligner -/

/-- Settles O8. -/
theorem binaryOperandIsBigEndian : Obligations.BinaryOperandIsBigEndian :=
  ⟨binaryOperand_toNat, fun _ _ => binaryOperand_congr⟩

/-- Settles O9: the fields are the digits of V in base 32. -/
theorem fieldsTileTheValue : Obligations.FieldsTileTheValue := by
  refine ⟨field_toNat, fun v => ?_⟩
  rw [funext (field_toNat v)]
  exact (fieldsValue_fieldOf v.isLt).symm

/-- Settles O10: each row is a field within one byte or across two. -/
theorem fieldsSitInTheirBytes : Obligations.FieldsSitInTheirBytes := by
  intro b v
  have hfield (k : Fin 26) (hk : k.val ≠ 0 := by decide) : field v k = v.extractLsb' (125 - 5 * k.val) 5 := field_pos v hk
  refine ⟨?_, ?_,
    (hfield 1).trans (binaryOperand_slice b 0 0),
    (hfield 2).trans (binaryOperand_slice b 1 3),
    (hfield 3).trans (binaryOperand_straddle b 1 3 2),
    (hfield 4).trans (binaryOperand_slice b 2 1),
    (hfield 5).trans (binaryOperand_straddle b 2 1 4),
    (hfield 6).trans (binaryOperand_straddle b 3 4 1),
    (hfield 7).trans (binaryOperand_slice b 4 2),
    (hfield 8).trans (binaryOperand_straddle b 4 2 3),
    (hfield 9).trans (binaryOperand_slice b 5 0),
    (hfield 10).trans (binaryOperand_slice b 6 3),
    (hfield 11).trans (binaryOperand_straddle b 6 3 2),
    (hfield 12).trans (binaryOperand_slice b 7 1),
    (hfield 13).trans (binaryOperand_straddle b 7 1 4),
    (hfield 14).trans (binaryOperand_straddle b 8 4 1),
    (hfield 15).trans (binaryOperand_slice b 9 2),
    (hfield 16).trans (binaryOperand_straddle b 9 2 3),
    (hfield 17).trans (binaryOperand_slice b 10 0),
    (hfield 18).trans (binaryOperand_slice b 11 3),
    (hfield 19).trans (binaryOperand_straddle b 11 3 2),
    (hfield 20).trans (binaryOperand_slice b 12 1),
    (hfield 21).trans (binaryOperand_straddle b 12 1 4),
    (hfield 22).trans (binaryOperand_straddle b 13 4 1),
    (hfield 23).trans (binaryOperand_slice b 14 2),
    (hfield 24).trans (binaryOperand_straddle b 14 2 3),
    (hfield 25).trans (binaryOperand_slice b 15 0)⟩
  · rw [field_zero, BitVec.extractLsb'_setWidth_of_le (by decide), BitVec.extractLsb'_eq_self]
    exact binaryOperand_slice b 0 5
  · rw [field_zero]
    ext i hi
    simp

/-- Settles O11: the digits packed are the fields extracted, and the bytes follow the table's period of eight places in
five bytes. -/
theorem alignerPacksTheFields : Obligations.AlignerPacksTheFields := by
  refine ⟨align_fields, fun g h => ⟨fields_align g h, ?_⟩, fun g => ?_, fun s t ht hok => ?_⟩
  · rw [align_toNat, funext (packedDigit_of_fits g h)]
  · exact ⟨alignByte_five_mul g 0, alignByte_five_mul_add_one g 0, alignByte_five_mul_add_two g 0,
      alignByte_five_mul_add_three g 0, alignByte_five_mul_add_four g 0,
      alignByte_five_mul g 1, alignByte_five_mul_add_one g 1, alignByte_five_mul_add_two g 1,
      alignByte_five_mul_add_three g 1, alignByte_five_mul_add_four g 1,
      alignByte_five_mul g 2, alignByte_five_mul_add_one g 2, alignByte_five_mul_add_two g 2,
      alignByte_five_mul_add_three g 2, alignByte_five_mul_add_four g 2,
      alignByte_five_mul g 3⟩
  · obtain rfl : s.respond (decodeResponse s.req) = t := Host.Outcome.next.inj ht
    exact first_le_of_decode_ok hok

/-! ### Commands (R44, R45) -/

/-- Settles O5, by the decoder's four cases. -/
theorem commandByteSelectsItsOperation : Obligations.CommandByteSelectsItsOperation := by
  refine ⟨rfl, rfl, rfl, fun i => by cases i <;> rfl, fun c i h => ?_⟩
  obtain ⟨rfl, e⟩ | ⟨rfl, e⟩ | ⟨rfl, e⟩ | ⟨-, -, -, r, e⟩ := decodeCmd_cases c
  · obtain rfl := Except.ok.inj (e.symm.trans h); rfl
  · obtain rfl := Except.ok.inj (e.symm.trans h); rfl
  · obtain rfl := Except.ok.inj (e.symm.trans h); rfl
  · cases e.symm.trans h

/-- Settles O6. -/
theorem sampleTableWordsDecode : Obligations.SampleTableWordsDecode :=
  ⟨rfl, rfl, rfl, rfl, rfl, rfl⟩

/-- A command is reserved exactly when it is none of the three of R44, checked over the 256 bytes (R45). -/
theorem cmd_reserved_iff : ∀ c : Byte, (cmdOp c = 3#2 ∨ cmdRsv c ≠ 0#6) ↔ c ≠ 0x00#8 ∧ c ≠ 0x01#8 ∧ c ≠ 0x02#8 := by
  decide

/-- Codec of a reserved command (R45). -/
theorem codec_of_reserved {r : Request} (h : cmdOp r.cmd = 3#2 ∨ cmdRsv r.cmd ≠ 0#6) :
    codec r = errorResponse .illegalOp := by
  obtain ⟨h0, h1, h2⟩ := (cmd_reserved_iff _).1 h
  obtain ⟨hc, -⟩ | ⟨hc, -⟩ | ⟨hc, -⟩ | ⟨-, -, -, e⟩ := codec_cases r
  · exact absurd hc h0
  · exact absurd hc h1
  · exact absurd hc h2
  · exact e

/-- Settles O7: completion responds with Codec of the request. -/
theorem reservedCommandAnswersIllegalOp : Obligations.ReservedCommandAnswersIllegalOp := by
  refine ⟨fun s h => ?_, cmd_reserved_iff⟩
  rw [complete_eq, codec_of_reserved h]
  rfl

/-! ### The host's length and lanes (R46, R47) -/

theorem hostLen_toNat {n : Nat} (h : n < 2 ^ 32) : (hostLen n).toNat = n := by
  unfold hostLen
  rw [if_pos h, BitVec.toNat_ofNat, Nat.mod_eq_of_lt h]

theorem hostLen_saturated {n : Nat} (h : 2 ^ 32 ≤ n) : hostLen n = 0xFFFFFFFF#32 := if_neg (Nat.not_lt.2 h)

/-- A length other than the saturated one is written only for itself (R46). -/
theorem hostLen_eq_iff {n m : Nat} (hm : m < 2 ^ 32 - 1) : hostLen n = BitVec.ofNat 32 m ↔ n = m := by
  rw [← BitVec.toNat_inj, BitVec.toNat_ofNat, Nat.mod_eq_of_lt (by omega)]
  by_cases h : n < 2 ^ 32
  · rw [hostLen_toNat h]
  · rw [hostLen_saturated (Nat.not_lt.1 h)]
    change 2 ^ 32 - 1 = m ↔ n = m
    omega

/-- Settles O50. -/
theorem saturatedLengthIsExact : Obligations.SaturatedLengthIsExact :=
  ⟨fun _ => hostLen_toNat, fun _ => hostLen_saturated, fun _ => ⟨hostLen_eq_iff (by decide), hostLen_eq_iff (by decide)⟩⟩

/-- Lane k of the host is octet k, or 0x00 where there is none (R47). -/
theorem hostLanes_lane (bytes : List Byte) (k : Fin 26) : (hostLanes bytes)[k] = bytes.getD k.val 0#8 := by
  rw [hostLanes, Fin.getElem_fin, Vector.getElem_ofFn]

theorem hostLanes_octet (bytes : List Byte) (k : Fin 26) (h : k.val < bytes.length) : (hostLanes bytes)[k] = bytes[k.val] := by
  rw [hostLanes_lane, List.getD_eq_getElem _ _ h]

/-- Octets from 26 on are not sent (R47). -/
theorem hostLanes_take (bytes : List Byte) : hostLanes bytes = hostLanes (bytes.take 26) := by
  refine Vector.ext fun k hk => ?_
  have hlane (l : List Byte) : (hostLanes l)[k] = l.getD k 0#8 := hostLanes_lane l ⟨k, hk⟩
  rw [hlane, hlane, List.getD_eq_getElem?_getD, List.getD_eq_getElem?_getD, List.getElem?_take_of_lt hk]

/-- Codec reads no lane at or above the length (R47). -/
theorem codec_congr {r q : Request} (hcmd : r.cmd = q.cmd) (hlen : r.len = q.len)
    (hdata : ∀ k : Fin 26, k.val < min r.len.toNat 26 → r.data[k] = q.data[k]) : codec r = codec q := by
  have h16 (h : r.len = 16#32) (k : Fin 26) (hk : k.val < 16) : r.data[k] = q.data[k] :=
    hdata k (by rw [h]; exact hk)
  have h26 (h : r.len = 26#32) : r.data = q.data :=
    Vector.ext fun k hk => hdata ⟨k, hk⟩ (by rw [h]; exact hk)
  unfold codec
  rw [← hcmd, encodeResponse_congr hlen h16, decodeResponse_congr hlen h26, validResponse_congr hlen h26]

section
variable {r : Request}

theorem encodeResponse_of_len (h : r.len = 16#32) :
    encodeResponse r = okResponse 26#5 (symbolLanes (binaryOperand r.data)) false := if_neg (not_not.2 h)

theorem encodeResponse_of_len_ne (h : r.len ≠ 16#32) : encodeResponse r = errorResponse .invalidLength := if_pos h

theorem decodeResponse_of_len_ne (h : r.len ≠ 26#32) : decodeResponse r = errorResponse .invalidLength := if_pos h

theorem validResponse_of_len_ne (h : r.len ≠ 26#32) : validResponse r = okResponse 0#5 Lanes.zero false := if_pos h

end

/-- Settles O51; an input longer than 26 octets has neither the length 16 nor 26. -/
theorem lanesCarryTheInput : Obligations.LanesCarryTheInput := by
  refine ⟨fun _ => hostLanes_octet, hostLanes_take, fun _ _ => codec_congr, fun bytes h => ?_⟩
  have h16 : hostLen bytes.length ≠ 16#32 := (hostLen_eq_iff (by decide)).not.2 (by omega)
  have h26 : hostLen bytes.length ≠ 26#32 := (hostLen_eq_iff (by decide)).not.2 (by omega)
  refine ⟨?_, ?_, ?_⟩
  · exact congrArg Response.status (encodeResponse_of_len_ne (r := hostRequest 0x00#8 bytes) h16)
  · exact congrArg Response.status (decodeResponse_of_len_ne (r := hostRequest 0x01#8 bytes) h26)
  · exact congrArg Response.verdict (validResponse_of_len_ne (r := hostRequest 0x02#8 bytes) h26)

/-! ### The host's lines (R56) -/

/-- A line other than RESET drives its request with req_valid = 1 and rst = 0. -/
theorem hostLineDrive_of_request {l : HostLine} {q : Request} (h : hostLineRequest? l = some q) :
    hostLineDrive? l = some { rst := false, reqValid := true, req := q, rspReady := false, readRsp := false } := by
  unfold hostLineDrive?
  split
  · cases h
  · rw [h]; rfl

/-- `ENCODE` with 16 bytes writes their request. -/
theorem hostLineRequest_encode {b : List Byte} (hb : b.length = 16) :
    hostLineRequest? (.encode b) = some (hostRequest 0x00#8 b) :=
  if_pos (by simp [HostLine.wellFormed, hb])

/-- `ENCODE.L` writes the length given, whatever the number of bytes. -/
theorem hostLineRequest_encodeL (n : Len) {b : List Byte} (hb : b.length ≤ 26) :
    hostLineRequest? (.encodeL n b) = some { cmd := 0x00#8, len := n, data := hostLanes b } :=
  if_pos (by simp [HostLine.wellFormed, hb])

/-- `REQ` writes the command and the length given. -/
theorem hostLineRequest_req (c : Byte) (n : Len) {b : List Byte} (hb : b.length ≤ 26) :
    hostLineRequest? (.req c n b) = some { cmd := c, len := n, data := hostLanes b } :=
  if_pos (by simp [HostLine.wellFormed, hb])

theorem wellFormed_generateText_iff {t : Nat} {r : List Byte} :
    (HostLine.generateText t r).wellFormed = true ↔ t < 2 ^ 48 ∧ r.length = 10 := by
  simp only [HostLine.wellFormed, Bool.and_eq_true, decide_eq_true_iff, beq_iff_eq]

/-- `GENERATE_TEXT` below 2^48 writes the ENCODE request of GENERATE_BIN (R57). -/
theorem hostLineRequest_generateText {t : Nat} {r : List Byte} (ht : t < 2 ^ 48) (hr : r.length = 10) :
    hostLineRequest? (.generateText t r) = some (hostRequest 0x00#8 (generateBin t r)) :=
  if_pos (wellFormed_generateText_iff.2 ⟨ht, hr⟩)

/-- An ill-formed line writes no request. -/
theorem hostLineRequest_illFormed {l : HostLine} (h : ¬ l.wellFormed = true) : hostLineRequest? l = none := if_neg h

/-- Settles O52. -/
theorem notationWritesItsRequests : Obligations.NotationWritesItsRequests := by
  refine ⟨fun b hb => ?_, fun b => ?_, fun b => ?_, fun n b hb => ?_, fun c n b hb => ?_, ⟨rfl, _, rfl, rfl⟩, fun l q h => ?_⟩
  · exact ⟨_, hostLineRequest_encode hb, rfl, (hostLen_eq_iff (by decide)).2 hb, hostLanes_lane b⟩
  · exact ⟨_, rfl, rfl, rfl, hostLanes_lane b⟩
  · exact ⟨_, rfl, rfl, rfl, hostLanes_lane b⟩
  · exact ⟨_, hostLineRequest_encodeL n hb, rfl, rfl, hostLanes_lane b⟩
  · exact ⟨_, hostLineRequest_req c n hb, rfl, rfl, hostLanes_lane b⟩
  · exact ⟨_, hostLineDrive_of_request h, rfl, rfl, rfl⟩

/-! ### GENERATE_TEXT (R57) -/

section
variable {t : Nat} {r : List Byte}

theorem generateBin_length (hr : r.length = 10) : (generateBin t r).length = 16 := by
  simp [generateBin, hr]

/-- The first six bytes are the digits of the timestamp in base 256. -/
theorem generateBin_timestamp (k : Fin 6) :
    ((generateBin t r).getD k.val 0#8).toNat = t / 256 ^ (6 - 1 - k.val) % 256 := by
  fin_cases k <;> simp [generateBin]

/-- The bytes after the first six are the random bytes. -/
theorem generateBin_random (k : Nat) : (generateBin t r).getD (k + 6) 0#8 = r.getD k 0#8 := by
  simp [generateBin, List.getD_eq_getElem?_getD]

/-- The first 48 bits of the value are the timestamp. -/
theorem bytesValue_generateBin (ht : t < 2 ^ 48) : bytesValue (hostLanes (generateBin t r)) / 2 ^ 80 = t := by
  have htop := ofDigitsBE_div_pow (b := 256) (n := 6) 10
    (f := fun k : Fin 16 => (hostLanes (generateBin t r))[k.val].toNat) fun k => BitVec.isLt _
  have hdigit (k : Fin 6) :
      (hostLanes (generateBin t r))[k.val].toNat = t / 256 ^ (6 - 1 - k.val) % 256 :=
    (congrArg BitVec.toNat (hostLanes_lane _ ⟨k.val, by omega⟩)).trans (generateBin_timestamp k)
  calc bytesValue (hostLanes (generateBin t r)) / 2 ^ 80
    _ = bytesValue (hostLanes (generateBin t r)) / 256 ^ 10 := rfl
    _ = ofDigitsBE 256 fun k : Fin 6 => (hostLanes (generateBin t r))[k.val].toNat := htop
    _ = t % 256 ^ 6 := by rw [funext hdigit, ofDigitsBE_of_digits]
    _ = t := Nat.mod_eq_of_lt ht

end

/-- Settles O53: the request is the ENCODE request of GENERATE_BIN's 16 bytes. -/
theorem generateTextIsAnEncodeThatSucceeds : Obligations.GenerateTextIsAnEncodeThatSucceeds := by
  refine ⟨fun t r ht hr => ?_, fun t r ht => ?_⟩
  · have hlen := generateBin_length (t := t) hr
    have h16 : (hostRequest 0x00#8 (generateBin t r)).len = 16#32 := (hostLen_eq_iff (by decide)).2 hlen
    have hok := encodeResponse_of_len h16
    refine ⟨_, hostLineRequest_generateText ht hr, hostLineRequest_encode hlen, rfl, h16, bytesValue_generateBin ht,
      fun k => ?_, congrArg Response.status hok, congrArg Response.outLen hok⟩
    exact (hostLanes_lane _ ⟨k.val + 6, by omega⟩).trans (generateBin_random k)
  · exact hostLineRequest_illFormed fun h => absurd ht (Nat.not_le.2 (wellFormed_generateText_iff.1 h).1)

end Sys2Proof.Machine
end

section
/-! PROOFS for 40_encoder.md: ENCODE's answer (R59, R63, R64), its alphabet (R61, R62) and its order (R65, R66). -/

namespace Sys2Proof.Machine

open Sys2Proof

/-! ### The fields as digits (R52) -/

section
variable {v w : Ulid} {k : Fin 26}

theorem field_eq_ofNat (v : Ulid) (k : Fin 26) : field v k = BitVec.ofNat 5 (fieldOf v.toNat k) := by
  rw [← field_toNat, BitVec.ofNat_toNat, BitVec.setWidth_eq]

/-- Field k is the base-32 digit of V with 25 - k digits below it (R52). -/
theorem field_toNat_digit (v : Ulid) (k : Fin 26) : (field v k).toNat = v.toNat / 32 ^ (26 - 1 - k.val) % 32 := by
  rw [field_toNat, fieldOf_eq_digit v.isLt]

/-- F[0] has 3 bits (R52, R62). -/
theorem field_zero_lt (v : Ulid) : (field v 0).toNat < 8 := by
  rw [field_zero, BitVec.toNat_setWidth_of_le (by decide)]
  exact BitVec.isLt _

/-- The fields above the last `m` are those of V without its last `m` digits. -/
theorem field_eq_of_div_eq {m : Nat} (h : v.toNat / 32 ^ m = w.toNat / 32 ^ m) (hk : k.val + m < 26) :
    field v k = field w k := by
  have hsplit (x : Nat) : x / 32 ^ (26 - 1 - k.val) = x / 32 ^ m / 32 ^ (26 - 1 - k.val - m) := by
    rw [Nat.div_div_eq_div_mul, ← Nat.pow_add, Nat.add_sub_cancel' (by omega)]
  apply BitVec.eq_of_toNat_eq
  rw [field_toNat_digit, field_toNat_digit, hsplit, hsplit, h]

/-- The last `m` fields are those of V's last `m` digits. -/
theorem field_eq_of_mod_eq {m : Nat} (h : v.toNat % 32 ^ m = w.toNat % 32 ^ m) (hk : 26 ≤ k.val + m) :
    field v k = field w k := by
  have hmod : v.toNat % 32 ^ (26 - 1 - k.val + 1) = w.toNat % 32 ^ (26 - 1 - k.val + 1) :=
    Nat.ModEq.of_dvd (Nat.pow_dvd_pow 32 (by omega)) h
  apply BitVec.eq_of_toNat_eq
  rw [field_toNat_digit, field_toNat_digit, ← Nat.mod_mul_right_div_self, ← Nat.mod_mul_right_div_self, ← Nat.pow_succ, hmod]

end

/-! ### The alphabet (R61, R62) -/

/-- No symbol is I, L, O, U or a lowercase letter, by the 32 rows of the table (R61). -/
theorem encLut_not_excluded : ∀ v : Sym5,
    encLut v ≠ 0x49#8 ∧ encLut v ≠ 0x4C#8 ∧ encLut v ≠ 0x4F#8 ∧ encLut v ≠ 0x55#8 ∧
      ¬ (0x61 ≤ (encLut v).toNat ∧ (encLut v).toNat ≤ 0x7A) := by decide

/-- The symbols of the values below 10 are the digits of ASCII (R21). -/
theorem encLut_digit {v : Sym5} (h : v.toNat < 10) : (encLut v).toNat = 0x30 + v.toNat :=
  (encLutHoldsTheSymbolBytes v).trans (if_pos h)

/-! ### Lexicographic order (R65, R66) -/

theorem LexLess.mono {n m : Nat} {a b : Lanes} (h : LexLess n a b) (hnm : n ≤ m) : LexLess m a b := by
  obtain ⟨k, hk, heq, hlt⟩ := h
  exact ⟨k, Nat.lt_of_lt_of_le hk hnm, heq, hlt⟩

/-- The first `n` symbols compare as V without its last `m` digits. Either the numbers still differ without the last of the
`n` digits, or the symbols above that digit are equal and its symbol decides. -/
theorem lexLess_symbolLanes {v w : Ulid} {n m : Nat} (hnm : n + m = 26) (h : v.toNat / 32 ^ m < w.toNat / 32 ^ m) :
    LexLess n (symbolLanes v) (symbolLanes w) := by
  induction n generalizing m with
  | zero =>
    obtain rfl : m = 26 := by omega
    have hw := w.isLt
    omega
  | succ n ih =>
    have hdrop (x : Nat) : x / 32 ^ (m + 1) = x / 32 ^ m / 32 := by rw [Nat.pow_succ, Nat.div_div_eq_div_mul]
    by_cases hlt : v.toNat / 32 ^ (m + 1) < w.toNat / 32 ^ (m + 1)
    · exact (ih (by omega) hlt).mono n.le_succ
    · have heq : v.toNat / 32 ^ (m + 1) = w.toNat / 32 ^ (m + 1) := by
        rw [hdrop, hdrop] at hlt ⊢
        omega
      refine ⟨⟨n, by omega⟩, n.lt_succ_self, fun j hj => ?_, ?_⟩
      · have hjn : j.val < n := hj
        rw [symbolLanes_lane, symbolLanes_lane, field_eq_of_div_eq heq (by omega)]
      · rw [symbolLanes_lane, symbolLanes_lane]
        refine BitVec.lt_def.1 (encLut_lt _ _ (BitVec.lt_def.2 ?_))
        rw [field_toNat_digit, field_toNat_digit, show 26 - 1 - n = m by omega]
        rw [hdrop, hdrop] at heq
        omega

/-! ### ENCODE -/

/-- ENCODE of a request with `len = 16` puts the symbols of V into the lanes (R59). -/
theorem encodeResponse_outData {r : Request} (h : r.len = 16#32) :
    (encodeResponse r).outData = symbolLanes (binaryOperand r.data) := by
  rw [encodeResponse_of_len h, okResponse]

/-- ENCODE of a state with `len = 16` answers a next state with the symbols of V in the lanes (R59). -/
theorem exec_encode_of_len {s : State} (h : s.req.len = 16#32) :
    ∃ t : State, exec .encode s = .next t ∧ t.rsp.outData = symbolLanes (binaryOperand s.req.data) :=
  ⟨_, exec_eq .encode s, encodeResponse_outData h⟩

/-- Settles O14: all 26 symbols compare as the whole of V. -/
theorem encodePreservesOrder : Obligations.EncodePreservesOrder := by
  intro s₁ s₂ h₁ h₂ hlt
  obtain ⟨t₁, e₁, hout₁⟩ := exec_encode_of_len h₁
  obtain ⟨t₂, e₂, hout₂⟩ := exec_encode_of_len h₂
  refine ⟨t₁, t₂, e₁, e₂, ?_⟩
  rw [hout₁, hout₂]
  refine lexLess_symbolLanes (m := 0) rfl ?_
  rwa [Nat.pow_zero, Nat.div_one, Nat.div_one, binaryOperand_toNat, binaryOperand_toNat]

/-- Settles O15: the random bits are the last 16 digits of V in base 32, the timestamp is the digits above them. -/
theorem timestampOrdersThePrefix : Obligations.TimestampOrdersThePrefix := by
  intro s₁ s₂ h₁ h₂
  obtain ⟨t₁, e₁, hout₁⟩ := exec_encode_of_len h₁
  obtain ⟨t₂, e₂, hout₂⟩ := exec_encode_of_len h₂
  refine ⟨t₁, t₂, e₁, e₂, ?_⟩
  rw [hout₁, hout₂, ← binaryOperand_toNat, ← binaryOperand_toNat, show 2 ^ 80 = 32 ^ 16 by decide]
  refine ⟨fun h k hk => ?_, fun h k hk => ?_, lexLess_symbolLanes rfl⟩
  · rw [symbolLanes_lane, symbolLanes_lane, field_eq_of_div_eq h (by omega)]
  · rw [symbolLanes_lane, symbolLanes_lane, field_eq_of_mod_eq h (by omega)]

/-- Settles O12. -/
theorem encodeAnswersItsSymbols : Obligations.EncodeAnswersItsSymbols := by
  refine ⟨rfl, fun s => ⟨_, exec_eq .encode s, rfl, encodeResponse_verdict s.req, fun h => ?_, fun h => ?_⟩⟩
  · have hok := encodeResponse_of_len h
    refine ⟨congrArg Response.status hok, congrArg Response.outLen hok, fun k => ?_⟩
    rw [← binaryOperand_toNat, ← field_eq_ofNat, ← symbolLanes_lane, ← encodeResponse_outData h]
    rfl
  · have herr := encodeResponse_of_len_ne h
    refine ⟨congrArg Response.status herr, congrArg Response.outLen herr, fun k => ?_⟩
    exact (congrArg (fun p : Response => p.outData[k]) herr).trans (lanesZero_lane k)

/-- Settles O13: each lane is the symbol of a field, and F[0] is below 8. -/
theorem encodeOutputsOnlyAlphabetSymbols : Obligations.EncodeOutputsOnlyAlphabetSymbols := by
  intro s h
  obtain ⟨t, e, hout⟩ := exec_encode_of_len h
  refine ⟨t, e, ?_⟩
  rw [hout]
  refine ⟨fun k => ?_, ?_⟩
  · rw [symbolLanes_lane]
    exact ⟨⟨_, rfl⟩, encLut_not_excluded _⟩
  · have hfirst : (symbolLanes (binaryOperand s.req.data))[0] = encLut (field (binaryOperand s.req.data) 0) :=
      symbolLanes_lane _ 0
    have hlt := field_zero_lt (binaryOperand s.req.data)
    rw [hfirst, encLut_digit (by omega)]
    omega

end Sys2Proof.Machine
end

section
/-! PROOFS for 41_decoder.md: DECODE's answer (R67, R69, R71, R72), and DECODE and ENCODE undo each other (R73 to R75). -/

namespace Sys2Proof.Machine

open Sys2Proof

/-! ### What DECODE accepts (R67, R69) -/

/-- The text a request of 26 octets holds is accepted: every lane is a member and the first value fits 3 bits (R67, R69,
log 10). -/
def Accepted (d : Lanes) : Prop := allMembers d = true ∧ firstSymbolFits d = true

/-- The value V' that a text stands for (R54, R67). -/
def textValue (d : Lanes) : Ulid := align (textValues d)

theorem accepted_iff (d : Lanes) : Accepted d ↔ (∀ k : Fin 26, isMember d[k] = true) ∧ symValue d[0] ≤ 7#5 := by
  rw [Accepted, allMembers_iff, firstSymbolFits_iff]

section
variable {r : Request}

theorem decodeResponse_of_accepted (hlen : r.len = 26#32) (h : Accepted r.data) :
    decodeResponse r = okResponse 16#5 (binaryLanes (textValue r.data)) false := by
  obtain ⟨hm, hf⟩ := h
  simp [decodeResponse, hlen, hm, hf, textValue]

theorem decodeResponse_of_not_accepted (hlen : r.len = 26#32) (h : ¬ Accepted r.data) :
    decodeResponse r = errorResponse .invalidCharacter := by
  obtain ⟨hne, -⟩ | ⟨-, -, e⟩ | ⟨-, hm, hf, -⟩ := decodeResponse_cases r
  · exact absurd hlen hne
  · exact e
  · exact absurd ⟨hm, hf⟩ h

/-- DECODE succeeds exactly on the 26-octet texts it accepts (R67). -/
theorem decodeResponse_ok_iff : (decodeResponse r).status = .ok ↔ r.len = 26#32 ∧ Accepted r.data := by
  constructor
  · intro h
    obtain ⟨-, e⟩ | ⟨-, -, e⟩ | ⟨hlen, hm, hf, -⟩ := decodeResponse_cases r
    · rw [e] at h; cases h
    · rw [e] at h; cases h
    · exact ⟨hlen, hm, hf⟩
  · rintro ⟨hlen, h⟩
    rw [decodeResponse_of_accepted hlen h, okResponse]

/-- The lanes of a successful DECODE are the bytes of the text's value (R67). -/
theorem decodeResponse_outData_of_ok (h : (decodeResponse r).status = .ok) :
    (decodeResponse r).outData = binaryLanes (textValue r.data) := by
  obtain ⟨hlen, hacc⟩ := decodeResponse_ok_iff.1 h
  rw [decodeResponse_of_accepted hlen hacc, okResponse]

/-- A failed DECODE answers the error form with its status, whatever the input was (R71, R83). -/
theorem decodeResponse_of_failed (h : (decodeResponse r).status ≠ .ok) :
    decodeResponse r = errorResponse (decodeResponse r).status := by
  obtain ⟨-, e⟩ | ⟨-, -, e⟩ | ⟨-, -, -, e⟩ := decodeResponse_cases r
  · rw [e]; rfl
  · rw [e]; rfl
  · rw [e] at h; exact absurd rfl h

/-- DECODE puts no byte into the lanes where it fails (R71). -/
theorem decodeResponse_lane_of_failed (h : (decodeResponse r).status ≠ .ok) (j : Fin 26) :
    (decodeResponse r).outData[j] = 0#8 := by
  rw [decodeResponse_of_failed h, errorResponse, lanesZero_lane]

end

/-! ### Bytes and the value they are of (R50, R54) -/

/-- Byte j by shift and mask (R54). -/
theorem binaryByte_toNat (v : Ulid) (j : Nat) : (binaryByte v j).toNat = v.toNat / 2 ^ (120 - 8 * j) % 256 := by
  rw [binaryByte, BitVec.extractLsb'_toNat, Nat.shiftRight_eq_div_pow]

/-- Assembling the bytes of a value gives the value: they are its digits in base 256 (R50, R54). -/
theorem binaryOperand_binaryLanes (v : Ulid) : binaryOperand (binaryLanes v) = v := by
  have hdigit (k : Fin 16) : (binaryLanes v)[k.val].toNat = v.toNat / 256 ^ (16 - 1 - k.val) % 256 := by
    have hlane : (binaryLanes v)[k.val] = binaryByte v k.val := binaryLanes_byte v ⟨k.val, by omega⟩ k.isLt
    rw [hlane, binaryByte_toNat, show 120 - 8 * k.val = 8 * (16 - 1 - k.val) by omega, Nat.pow_mul]
  apply BitVec.eq_of_toNat_eq
  rw [binaryOperand_toNat, bytesValue_eq, funext hdigit, ofDigitsBE_of_digits]
  exact Nat.mod_eq_of_lt v.isLt

/-- The bytes of ENCODE's operand are its lanes 0..15 (R50, R54). -/
theorem binaryLanes_binaryOperand (d : Lanes) (j : Fin 26) (hj : j.val < 16) : (binaryLanes (binaryOperand d))[j] = d[j] := by
  rw [binaryLanes_byte _ _ hj]
  exact binaryByte_binaryOperand d ⟨j.val, hj⟩

/-! ### Texts and the values they stand for (R73 to R75) -/

/-- The symbols of a value decode to its fields (R24, R73). -/
theorem textValues_symbolLanes (v : Ulid) : textValues (symbolLanes v) = fields v := by
  refine Vector.ext fun k hk => ?_
  have hlane : (textValues (symbolLanes v))[(⟨k, hk⟩ : Fin 26)] = (fields v)[(⟨k, hk⟩ : Fin 26)] := by
    rw [textValues_lane, symbolLanes_lane, fields_lane, symValue, decLut_encLut]
  exact hlane

/-- The symbols of a value stand for the value (R73). -/
theorem textValue_symbolLanes (v : Ulid) : textValue (symbolLanes v) = v := by
  rw [textValue, textValues_symbolLanes, align_fields]

/-- The symbols of a value are a text that DECODE accepts: F[0] has 3 bits (R62, R73). -/
theorem accepted_symbolLanes (v : Ulid) : Accepted (symbolLanes v) := by
  refine (accepted_iff _).2 ⟨fun k => ?_, ?_⟩
  · rw [symbolLanes_lane, isMember, decLut_encLut]
  · have hfirst : (symbolLanes v)[0] = encLut (field v 0) := symbolLanes_lane v 0
    rw [hfirst, symValue, decLut_encLut]
    exact BitVec.le_def.2 (Nat.le_of_lt_succ (field_zero_lt v))

/-- The value in place 0 of an accepted text fits 3 bits (R69, log 10). -/
theorem textValues_first_le {d : Lanes} (h : Accepted d) : (textValues d)[0] ≤ 7#5 := by
  have hfirst : (textValues d)[0] = symValue d[0] := textValues_lane d 0
  rw [hfirst]
  exact ((accepted_iff d).1 h).2

/-- The symbols of the value an accepted text stands for are the text: no bit of G[0] is dropped (R69, R74, log 10). -/
theorem symbolLanes_textValue {d : Lanes} (h : Accepted d) : symbolLanes (textValue d) = d := by
  obtain ⟨hmember, -⟩ := (accepted_iff d).1 h
  refine Vector.ext fun k hk => ?_
  have hlane : (symbolLanes (textValue d))[(⟨k, hk⟩ : Fin 26)] = d[(⟨k, hk⟩ : Fin 26)] := by
    rw [symbolLanes_lane, ← fields_lane, textValue, fields_align _ (textValues_first_le h), textValues_lane,
      encLut_symValue _ (hmember _)]
  exact hlane

/-- The value of an accepted text has the symbols' values as its digits in base 32 (R52, R69). -/
theorem textValue_toNat {d : Lanes} (h : Accepted d) : (textValue d).toNat = fieldsValue fun k => (symValue d[k]).toNat := by
  rw [textValue, align_toNat]
  congr 1
  funext k
  rw [packedDigit_of_fits _ (textValues_first_le h), textValues_lane]

/-- The accepted texts and the 128-bit values correspond one to one (R75). -/
def acceptedTextsEquiv : { d : Lanes // Accepted d } ≃ Ulid where
  toFun d := textValue d.1
  invFun v := ⟨symbolLanes v, accepted_symbolLanes v⟩
  left_inv d := Subtype.ext (symbolLanes_textValue d.2)
  right_inv := textValue_symbolLanes

theorem card_acceptedTexts : Nat.card { d : Lanes // Accepted d } = 2 ^ 128 := by
  rw [Nat.card_congr (acceptedTextsEquiv.trans BitVec.equivFin.toEquiv), Nat.card_fin]

/-! ### DECODE and ENCODE one after the other -/

/-- DECODE of the symbols of a value answers OK and the bytes of the value (R73). -/
theorem decodeResponse_symbolLanes {r : Request} {v : Ulid} (hlen : r.len = 26#32) (hdata : r.data = symbolLanes v) :
    decodeResponse r = okResponse 16#5 (binaryLanes v) false := by
  rw [decodeResponse_of_accepted hlen (hdata ▸ accepted_symbolLanes v), hdata, textValue_symbolLanes]

/-- The text that DECODE accepted is the symbols of the operand that its output bytes assemble to (R74). -/
theorem symbolLanes_outData_of_decode_ok {r : Request} (h : (decodeResponse r).status = .ok) :
    symbolLanes (binaryOperand (decodeResponse r).outData) = r.data := by
  obtain ⟨-, hacc⟩ := decodeResponse_ok_iff.1 h
  rw [decodeResponse_outData_of_ok h, binaryOperand_binaryLanes, symbolLanes_textValue hacc]

/-- 16 bytes as the lanes of a request, 0x00 in the lanes above (R47). -/
def lanesOfBytes (b : Vector Byte 16) : Lanes := b ++ Vector.replicate 10 0#8

theorem lanesOfBytes_byte (b : Vector Byte 16) (j : Fin 16) : (lanesOfBytes b)[j.val] = b[j] :=
  Vector.getElem_append_left j.isLt

/-- DECODE of a state answers a next state with its response, and nothing but the response and the phase changes (R67). -/
theorem exec_decode (s : State) :
    ∃ t : State, exec .decode s = .next t ∧ t = { s with phase := .done, rsp := t.rsp } ∧ t.rsp = decodeResponse s.req :=
  ⟨_, exec_eq .decode s, rfl, rfl⟩

/-- Settles O18: ENCODE's text stands for V, and the bytes of V are the lanes. -/
theorem decodeOfEncodeIsTheBytes : Obligations.DecodeOfEncodeIsTheBytes := by
  intro s₁ h₁
  obtain ⟨t₁, e₁, hout⟩ := exec_encode_of_len h₁
  refine ⟨t₁, e₁, fun s₂ h₂ hdata => ?_⟩
  obtain ⟨t₂, e₂, -, hrsp⟩ := exec_decode s₂
  rw [decodeResponse_symbolLanes h₂ (hdata.trans hout)] at hrsp
  refine ⟨t₂, e₂, ?_⟩
  rw [hrsp]
  exact ⟨rfl, binaryLanes_binaryOperand s₁.req.data⟩

/-- Settles O19: ENCODE's operand is assembled from DECODE's bytes. -/
theorem encodeOfDecodeIsTheText : Obligations.EncodeOfDecodeIsTheText := by
  intro s₁ h₁
  obtain ⟨t₁, e₁, -, hrsp⟩ := exec_decode s₁
  refine ⟨t₁, e₁, ?_⟩
  rw [hrsp]
  intro hok s₂ h₂ hbytes
  have hresp := encodeResponse_of_len h₂
  refine ⟨_, exec_eq .encode s₂, congrArg Response.status hresp, congrArg Response.outLen hresp, ?_⟩
  calc (encodeResponse s₂.req).outData
      = symbolLanes (binaryOperand s₂.req.data) := encodeResponse_outData h₂
    _ = symbolLanes (binaryOperand (decodeResponse s₁.req).outData) := congrArg symbolLanes (binaryOperand_congr hbytes)
    _ = s₁.req.data := symbolLanes_outData_of_decode_ok hok

/-- Settles O16, by what the request holds: another length, a text that is not accepted, or an accepted text. -/
theorem decodeAnswersItsBytes : Obligations.DecodeAnswersItsBytes := by
  refine ⟨rfl, fun s => ?_⟩
  obtain ⟨t, e, hframe, hrsp⟩ := exec_decode s
  refine ⟨t, e, hframe, ?_⟩
  rw [hrsp]
  refine ⟨decodeResponse_verdict s.req, fun h => ?_, fun h ⟨k, hk⟩ => ?_, fun h hfirst => ?_,
    fun h hmember hfits => ?_, fun h => ⟨(decodeResponse_outLen s.req).trans (if_neg h), decodeResponse_lane_of_failed h⟩⟩
  · rw [decodeResponse_of_len_ne h, errorResponse]
  · have hnot : ¬ Accepted s.req.data := by
      rw [accepted_iff]
      exact fun ⟨hmember, _⟩ => Bool.false_ne_true (hk.symm.trans (hmember k))
    rw [decodeResponse_of_not_accepted h hnot, errorResponse]
  · have hnot : ¬ Accepted s.req.data := by
      rw [accepted_iff]
      exact fun ⟨_, hfits⟩ => BitVec.not_lt.2 hfits hfirst
    rw [decodeResponse_of_not_accepted h hnot, errorResponse]
  · have hacc : Accepted s.req.data := (accepted_iff _).2 ⟨hmember, hfits⟩
    rw [decodeResponse_of_accepted h hacc]
    refine ⟨rfl, rfl, fun j hj => ?_, binaryLanes_zero _⟩
    calc (binaryLanes (textValue s.req.data))[j].toNat
        = (textValue s.req.data).toNat / 2 ^ (120 - 8 * j.val) % 256 := by rw [binaryLanes_byte _ j hj, binaryByte_toNat]
      _ = (fieldsValue fun k => (symValue s.req.data[k]).toNat) / 2 ^ (120 - 8 * j.val) % 256 := by
          rw [textValue_toNat hacc]

/-- Settles O20: each text DECODE accepts is the symbols of the value it stands for. -/
theorem acceptedTextsMatchTheValuesOneToOne : Obligations.AcceptedTextsMatchTheValuesOneToOne := by
  refine ⟨fun s₁ s₂ => ?_, fun b => ⟨symbolLanes (binaryOperand (lanesOfBytes b)), fun s hlen hdata => ?_⟩, ?_⟩
  · obtain ⟨t₁, e₁, -, hrsp₁⟩ := exec_decode s₁
    obtain ⟨t₂, e₂, -, hrsp₂⟩ := exec_decode s₂
    refine ⟨t₁, t₂, e₁, e₂, ?_⟩
    rw [hrsp₁, hrsp₂]
    intro hok₁ hok₂ hout
    rw [← symbolLanes_outData_of_decode_ok hok₁, hout, symbolLanes_outData_of_decode_ok hok₂]
  · obtain ⟨t, e, -, hrsp⟩ := exec_decode s
    rw [decodeResponse_symbolLanes hlen hdata] at hrsp
    refine ⟨t, e, ?_⟩
    rw [hrsp]
    exact ⟨rfl, fun j => (binaryLanes_binaryOperand _ (j.castLE (by decide)) j.isLt).trans (lanesOfBytes_byte b j)⟩
  · have haccepted (d : Lanes) : (codec { cmd := 0x01#8, len := 26#32, data := d }).status = .ok ↔ Accepted d :=
      (decodeResponse_ok_iff (r := { cmd := 0x01#8, len := 26#32, data := d })).trans (and_iff_right rfl)
    rw [Nat.card_congr (Equiv.subtypeEquivRight haccepted), card_acceptedTexts]
    rfl

/-- Settles O17: a failed DECODE answers the error form. -/
theorem failedDecodeShowsNothingOfItsInput : Obligations.FailedDecodeShowsNothingOfItsInput := by
  intro s₁ s₂
  obtain ⟨t₁, e₁, -, hrsp₁⟩ := exec_decode s₁
  obtain ⟨t₂, e₂, -, hrsp₂⟩ := exec_decode s₂
  refine ⟨t₁, t₂, e₁, e₂, ?_⟩
  rw [hrsp₁, hrsp₂]
  refine ⟨fun h => ?_, fun h₁ h₂ => ?_⟩
  · exact ⟨(decodeResponse_outLen s₁.req).trans (if_neg h), decodeResponse_lane_of_failed h, decodeResponse_verdict s₁.req⟩
  · rw [decodeResponse_of_failed h₁]
    exact (decodeResponse_of_failed h₂).symm

end Sys2Proof.Machine
end

section
/-! PROOFS for 42_validator.md: VALID's answer (R76, R78, R81), what its verdict tests (R77), and VALID against DECODE (R79). -/

namespace Sys2Proof.Machine

open Sys2Proof

/-! ### What the verdict tests (R76, R77) -/

/-- The members are the symbol bytes (R77). -/
theorem isMember_iff_symbol (c : Byte) : isMember c = true ↔ ∃ v : Sym5, c = encLut v := by
  constructor
  · exact fun h => ⟨symValue c, (encLut_symValue c h).symm⟩
  · rintro ⟨v, rfl⟩
    rw [isMember, decLut_encLut]

/-- A member of value at most 7 is one of the digits `0`-`7` (R77, log 10). -/
theorem isMember_and_le_seven_iff (c : Byte) :
    (isMember c = true ∧ symValue c ≤ 7#5) ↔ 0x30 ≤ c.toNat ∧ c.toNat ≤ 0x37 := by
  constructor
  · rintro ⟨hmember, hle⟩
    have hvalue : (symValue c).toNat ≤ 7 := BitVec.le_def.1 hle
    have hdigit : (encLut (symValue c)).toNat = 0x30 + (symValue c).toNat := encLut_digit (by omega)
    rw [encLut_symValue c hmember] at hdigit
    omega
  · rintro ⟨hlow, hhigh⟩
    obtain ⟨v, hv⟩ : ∃ v : Sym5, v.toNat = c.toNat - 0x30 := ⟨BitVec.ofNat 5 _, Nat.mod_eq_of_lt (by omega)⟩
    have hdigit : (encLut v).toNat = 0x30 + v.toNat := encLut_digit (by omega)
    obtain rfl : c = encLut v := BitVec.eq_of_toNat_eq (by omega)
    have hle : v.toNat ≤ 7 := by omega
    rw [isMember, symValue, decLut_encLut]
    exact ⟨rfl, BitVec.le_def.2 hle⟩

/-- A text is accepted exactly if its first symbol is one of `0`-`7` and every lane is a member (R77, log 10). -/
theorem accepted_iff_first_digit (d : Lanes) :
    Accepted d ↔ (0x30 ≤ d[0].toNat ∧ d[0].toNat ≤ 0x37) ∧ ∀ k : Fin 26, isMember d[k] = true := by
  rw [accepted_iff, ← isMember_and_le_seven_iff]
  constructor
  · exact fun ⟨hmember, hle⟩ => ⟨⟨hmember 0, hle⟩, hmember⟩
  · exact fun ⟨⟨_, hle⟩, hmember⟩ => ⟨hmember, hle⟩

/-! ### VALID's answer (R76, R78, R81) -/

/-- VALID answers verdict 1 exactly on the 26-octet texts that DECODE accepts (R76, log 10). -/
theorem validResponse_verdict_iff {r : Request} : (validResponse r).verdict = true ↔ r.len = 26#32 ∧ Accepted r.data := by
  simp [validResponse_cases, okResponse, Accepted]

theorem validResponse_status (r : Request) : (validResponse r).status = .ok := by rw [validResponse_cases, okResponse]

/-- VALID answers no bytes (R78). -/
theorem validResponse_lane (r : Request) (k : Fin 26) : (validResponse r).outData[k] = 0#8 := by
  rw [validResponse_cases, okResponse, lanesZero_lane]

/-- VALID of a state answers a next state with its response, and nothing but the response and the phase changes (R76). -/
theorem exec_valid (s : State) :
    ∃ t : State, exec .valid s = .next t ∧ t = { s with phase := .done, rsp := t.rsp } ∧ t.rsp = validResponse s.req :=
  ⟨_, exec_eq .valid s, rfl, rfl⟩

/-- Settles O21: the verdict is the acceptance that DECODE tests too. -/
theorem validAnswersItsVerdict : Obligations.ValidAnswersItsVerdict := by
  refine ⟨rfl, fun s => ?_⟩
  obtain ⟨t, e, hframe, hrsp⟩ := exec_valid s
  refine ⟨t, e, hframe, ?_⟩
  rw [hrsp]
  refine ⟨validResponse_status _, validResponse_outLen _, validResponse_lane _, ?_⟩
  exact validResponse_verdict_iff.trans (and_congr_right fun _ => accepted_iff s.req.data)

/-- Settles O22: an accepted text is a digit `0`-`7` first and members throughout. -/
theorem firstSymbolIsADigitUpToSeven : Obligations.FirstSymbolIsADigitUpToSeven := by
  refine ⟨isMember_iff_symbol, fun s hlen => ?_⟩
  obtain ⟨t, e, -, hrsp⟩ := exec_valid s
  refine ⟨t, e, isMember_and_le_seven_iff _, ?_⟩
  rw [hrsp, validResponse_verdict_iff, and_iff_right hlen, accepted_iff_first_digit]

/-- Settles O23: both operations accept the same texts. -/
theorem validExactlyWhenDecodeSucceeds : Obligations.ValidExactlyWhenDecodeSucceeds := by
  intro s₁ s₂ hlen hdata
  obtain ⟨t₁, e₁, -, hrsp₁⟩ := exec_valid s₁
  obtain ⟨t₂, e₂, -, hrsp₂⟩ := exec_decode s₂
  refine ⟨t₁, t₂, e₁, e₂, ?_⟩
  rw [hrsp₁, hrsp₂, validResponse_verdict_iff, decodeResponse_ok_iff, hlen, hdata]

end Sys2Proof.Machine
end

section
/-! PROOFS for 60_exceptions.md: the causes of the outcome codes and their order (R82, R84), the form of an error response
(R83), and runs with a legal host (R86). -/

namespace Sys2Proof.Machine

open Sys2Proof

/-! ### Runs with a legal host (R86) -/

section
variable {s t : State} {n : Nat}

/-- A legal move of the host has no faulting read, and is a reset or a quiet move. -/
theorem State.hostLegal_cases (h : s.hostLegal = true) :
    (s.nextInput.readRsp = true → s.readFault = none) ∧ (s.nextInput.rst = true ∨ s.hostQuiet = true) := by
  constructor
  · intro hread
    obtain ⟨hvalid, -⟩ : (s.wasReset = true ∧ s.phase = .done) ∧ _ := by
      simpa [State.hostLegal, State.rspValid, hread] using h
    exact (readFault_none s).2 hvalid
  · cases hrst : s.nextInput.rst with
    | true => exact .inl rfl
    | false => exact .inr (by simp [State.hostQuiet, h, hrst])

/-- At a legal move of the host a step answers a next state: the reset, or an edge of the handshake (R86). -/
theorem step_next_of_hostLegal (h : s.hostLegal = true) : ∃ t, step s = .next t := by
  obtain ⟨hread, hrst | hquiet⟩ := State.hostLegal_cases h
  · exact ⟨_, edge_reset Config.latency s.nextInput s.dropInput hread hrst⟩
  · rw [step_quiet s hquiet]
    exact handshake_next _ _ _

theorem State.legalFor.hostLegal (h : s.legalFor (n + 1)) : s.hostLegal = true :=
  h 0 n.succ_pos s ((reaches_zero s s).2 rfl)

/-- The moves after the first edge of a legal run are legal. -/
theorem State.legalFor.tail (h : s.legalFor (n + 1)) (hs : step s = .next t) : t.legalFor n :=
  fun j hj u hu => h (j + 1) (Nat.succ_lt_succ hj) u ((reaches_succ s t u j hs).2 hu)

end

/-- Settles O44, by induction on the number of edges: a legal move has a next state, which meets the invariant. -/
theorem legalRunsNeverStop : Obligations.LegalRunsNeverStop := by
  intro s n
  induction n generalizing s with
  | zero => exact fun hs _ => ⟨s, (reaches_zero s s).2 rfl, hs⟩
  | succ n ih =>
    intro hs hlegal
    obtain ⟨t, ht⟩ := step_next_of_hostLegal hlegal.hostLegal
    obtain ⟨u, hu, hinv⟩ := ih t (stepKeepsTheInvariant s t hs ht) (hlegal.tail ht)
    exact ⟨u, (reaches_succ s t u n ht).2 hu, hinv⟩

/-! ### The causes of the outcome codes (R82, R84) -/

/-- The causes of an error code, the first that applies in the order of R84 (R82; the overflow cause by D7, log 10). -/
def Request.ErrorCause (r : Request) : Status → Prop
  | .ok => False
  | .illegalOp => r.cmd ≠ 0x00#8 ∧ r.cmd ≠ 0x01#8 ∧ r.cmd ≠ 0x02#8
  | .invalidLength => (r.cmd = 0x00#8 ∧ r.len ≠ 16#32) ∨ (r.cmd = 0x01#8 ∧ r.len ≠ 26#32)
  | .invalidCharacter => r.cmd = 0x01#8 ∧ r.len = 26#32 ∧ ¬ Accepted r.data

section
variable {r : Request}

theorem codec_of_encode (h : r.cmd = 0x00#8) : codec r = encodeResponse r := if_pos h

theorem codec_of_decode (h : r.cmd = 0x01#8) : codec r = decodeResponse r := by
  rw [codec, h, if_neg (by decide), if_pos rfl]

/-- A cause of a code makes Codec answer the error response of that code (R82). -/
theorem codec_of_errorCause {c : Status} (h : r.ErrorCause c) : codec r = errorResponse c := by
  cases c with
  | ok => exact h.elim
  | illegalOp => exact codec_of_reserved ((cmd_reserved_iff _).2 h)
  | invalidLength =>
    obtain ⟨hc, hlen⟩ | ⟨hc, hlen⟩ := h
    · rw [codec_of_encode hc, encodeResponse_of_len_ne hlen]
    · rw [codec_of_decode hc, decodeResponse_of_len_ne hlen]
  | invalidCharacter =>
    obtain ⟨hc, hlen, hnot⟩ := h
    rw [codec_of_decode hc, decodeResponse_of_not_accepted hlen hnot]

theorem codec_status_of_errorCause {c : Status} (h : r.ErrorCause c) : (codec r).status = c :=
  congrArg Response.status (codec_of_errorCause h)

/-- Where Codec does not answer OK, its status has a cause (R82). -/
theorem errorCause_of_failed (h : (codec r).status ≠ .ok) : r.ErrorCause (codec r).status := by
  obtain ⟨hc, e⟩ | ⟨hc, e⟩ | ⟨-, e⟩ | ⟨h0, h1, h2, e⟩ := codec_cases r <;> rw [e] at h ⊢
  · obtain ⟨hlen, e⟩ | ⟨-, e⟩ := encodeResponse_cases r <;> rw [e] at h ⊢
    · exact .inl ⟨hc, hlen⟩
    · exact absurd rfl h
  · obtain ⟨hlen, e⟩ | ⟨hlen, -, e⟩ | ⟨-, -, -, e⟩ := decodeResponse_cases r
    · rw [e]; exact .inr ⟨hc, hlen⟩
    · rw [e]; exact ⟨hc, hlen, fun hacc => h (decodeResponse_ok_iff.2 ⟨hlen, hacc⟩)⟩
    · rw [e] at h; exact absurd rfl h
  · exact absurd (validResponse_status r) h
  · exact ⟨h0, h1, h2⟩

/-- Codec answers an error code exactly if the request has a cause of that code (R82). -/
theorem codec_status_iff {c : Status} (hc : c ≠ .ok) : (codec r).status = c ↔ r.ErrorCause c := by
  constructor
  · rintro rfl
    exact errorCause_of_failed hc
  · exact codec_status_of_errorCause

/-- A failed request is answered with the error form of its status (R83). -/
theorem codec_of_failed (h : (codec r).status ≠ .ok) : codec r = errorResponse (codec r).status :=
  codec_of_errorCause (errorCause_of_failed h)

end

/-- A text is rejected for a non-member, or with members throughout for a first value above 7 (R67, R69, log 10). -/
theorem not_accepted_iff (d : Lanes) :
    ¬ Accepted d ↔
      (∃ k : Fin 26, isMember d[k] = false) ∨ ((∀ k : Fin 26, isMember d[k] = true) ∧ 7#5 < symValue d[0]) := by
  have hsome : (∃ k : Fin 26, isMember d[k] = false) ↔ ¬ ∀ k : Fin 26, isMember d[k] = true := by simp
  rw [accepted_iff, hsome, not_and_or, BitVec.not_le]
  tauto

/-- The four codes of R49 are different. -/
theorem Status.code_injective : Function.Injective Status.code := by
  intro a b
  cases a <;> cases b <;> decide

/-- Settles O24: a code is answered exactly for its causes, in the error form, which holds nothing but the code. -/
theorem outcomesHaveTheirCauses : Obligations.OutcomesHaveTheirCauses := by
  refine ⟨fun r => ⟨codec_status_iff (c := .illegalOp) nofun, codec_status_iff (c := .invalidLength) nofun, ?_, ?_⟩,
    fun r q h heq => ?_⟩
  · have hcause := codec_status_iff (r := r) (c := .invalidCharacter) nofun
    rw [Request.ErrorCause, not_accepted_iff] at hcause
    exact hcause
  · have hcode (c : Status) : (codec r).status.code = c.code ↔ (codec r).status = c := Status.code_injective.eq_iff
    exact ⟨hcode .ok, hcode .invalidLength, hcode .invalidCharacter, hcode .illegalOp⟩
  · rw [codec_of_failed h, heq]
    exact (codec_of_failed (heq ▸ h)).symm

/-- Settles O25: a failed request is answered with the error form of its status. -/
theorem errorResponsesHaveOneForm : Obligations.ErrorResponsesHaveOneForm := by
  intro r h
  rw [codec_of_failed h]
  refine ⟨rfl, lanesZero_lane, rfl, fun q hq => ?_⟩
  rw [codec_of_failed hq]
  rfl

/-- Settles O26: what each step of the order tests is a cause of its code. -/
theorem firstCauseIsReported : Obligations.FirstCauseIsReported := by
  refine ⟨fun r hc => codec_status_of_errorCause (c := .illegalOp) ?_,
    fun r => codec_status_of_errorCause (c := .invalidLength), fun r hc hlen hk => ?_, fun r hc hlen hmember hfirst => ?_⟩
  · simpa [Request.ErrorCause] using hc
  · have hnot : ¬ Accepted r.data := (not_accepted_iff _).2 (.inl hk)
    exact codec_status_of_errorCause (c := .invalidCharacter) ⟨hc, hlen, hnot⟩
  · have hnot : ¬ Accepted r.data := (not_accepted_iff _).2 (.inr ⟨hmember, hfirst⟩)
    exact codec_status_of_errorCause (c := .invalidCharacter) ⟨hc, hlen, hnot⟩

end Sys2Proof.Machine
end

section
/-! PROOFS for 70_reset_and_hazards.md: reset and the handshake edge by edge (R94 to R102), the bounded response (R101 to
R105), and the transaction-level model (R107). -/

namespace Sys2Proof.Machine

open Sys2Proof

/-! ### One rule per kind of edge (R95 to R102) -/

section
variable {s : State}

/-- An edge with reset and no faulting read is the reset, whatever the state (R95). -/
theorem step_reset (hread : s.nextInput.readRsp = true → s.readFault = none) (hrst : s.nextInput.rst = true) :
    step s = .next s.dropInput.applyReset :=
  edge_reset Config.latency s.nextInput s.dropInput hread hrst

/-- Acceptance (R99). -/
theorem step_accept (hquiet : s.hostQuiet = true) (hp : s.phase = .idle) (hready : s.reqReady = true)
    (hvalid : s.nextInput.reqValid = true) : step s = .next (s.dropInput.accept Config.latency s.nextInput.req) := by
  have hready' : s.dropInput.reqReady = true := hready
  rw [step_quiet s hquiet, State.handshake, State.dropInput_phase, hp]
  simp [hvalid, hready']

/-- An edge at which an idle block is offered nothing. -/
theorem step_idle (hquiet : s.hostQuiet = true) (hp : s.phase = .idle) (hvalid : s.nextInput.reqValid = false) :
    step s = .next (s.dropInput.noteOffer s.nextInput) := by
  rw [step_quiet s hquiet, State.handshake, State.dropInput_phase, hp]
  simp [hvalid]

/-- The last edge in PENDING is the completion of the counted request (R101). -/
theorem step_lastEdge (hquiet : s.hostQuiet = true) (hp : s.phase = .pending) (hleft : s.edgesLeft ≤ 1) :
    step s = ((s.dropInput.noteOffer s.nextInput).countEdge).complete := by
  rw [step_quiet s hquiet, State.handshake, State.dropInput_phase, hp]
  exact if_pos hleft

/-- The last edge in PENDING responds with Codec of the request (R101). -/
theorem step_complete (hquiet : s.hostQuiet = true) (hp : s.phase = .pending) (hleft : s.edgesLeft ≤ 1) :
    step s = .next (((s.dropInput.noteOffer s.nextInput).countEdge).respond (codec s.req)) := by
  rw [step_lastEdge hquiet hp hleft, complete_eq]
  rfl

/-- An earlier edge in PENDING only counts (R101). -/
theorem step_count (hquiet : s.hostQuiet = true) (hp : s.phase = .pending) (hleft : 1 < s.edgesLeft) :
    step s = .next (s.dropInput.noteOffer s.nextInput).countEdge := by
  rw [step_quiet s hquiet, State.handshake, State.dropInput_phase, hp]
  exact if_neg (Nat.not_le.2 hleft)

/-- Take (R102). -/
theorem step_take (hquiet : s.hostQuiet = true) (hp : s.phase = .done) (htake : s.nextInput.rspReady = true) :
    step s = .next (s.dropInput.noteOffer s.nextInput).take := by
  rw [step_quiet s hquiet, State.handshake, State.dropInput_phase, hp]
  exact if_pos htake

/-- A response that is not taken waits (R101). -/
theorem step_wait (hquiet : s.hostQuiet = true) (hp : s.phase = .done) (hwait : s.nextInput.rspReady = false) :
    step s = .next (s.dropInput.noteOffer s.nextInput) := by
  rw [step_quiet s hquiet, State.handshake, State.dropInput_phase, hp]
  simp [hwait]

/-- A step is refused exactly when an edge without reset and without a faulting read comes before the first reset or
changes the offered request (R98, R100). -/
theorem step_refused (r : Refusal) :
    step s = .refused r ↔ (s.nextInput.readRsp = true → s.readFault = none) ∧ s.nextInput.rst = false ∧
      ((s.wasReset = false ∧ r = .notYetReset) ∨
       (s.wasReset = true ∧ s.nextInput.keepsOffer s.offer = false ∧ r = .requestChangedBeforeAcceptance)) :=
  edge_refused Config.latency s.nextInput s.dropInput r

theorem State.rspValid_iff : s.rspValid = true ↔ s.phase = .done := decide_eq_true_iff

theorem State.rspValid_eq_false (h : s.phase ≠ .done) : s.rspValid = false := decide_eq_false h

/-- Before the first reset every read is a fault (R98). -/
theorem readFault_ne_none (hwas : s.wasReset = false) : s.readFault ≠ none := by
  simp [readFault_none, hwas]

/-- The ports show no response outside DONE (R19). -/
theorem outputs_rsp_eq_none (h : s.phase ≠ .done) : s.outputs.rsp = none := by
  simp [outputs_rsp, h]

/-- In a state of the invariant the block is ready exactly in IDLE (R18). -/
theorem State.Inv.reqReady_eq (h : s.Inv) : s.reqReady = decide (s.phase = .idle) := by
  obtain ⟨-, hbusy, -⟩ := h
  simp [State.reqReady, hbusy]

/-- The host breaks its duty of R100 exactly where it withdraws or changes the offered request. -/
theorem keepsOffer_eq_false (i : EdgeInput) (offer : Option Request) :
    i.keepsOffer offer = false ↔ ∃ r, offer = some r ∧ (i.reqValid = false ∨ i.req ≠ r) := by
  cases offer with
  | none => simp [EdgeInput.keepsOffer]
  | some r => cases h : i.reqValid <;> simp [EdgeInput.keepsOffer, h]

end

/-! ### What one edge leaves behind -/

/-- Settles O32; a second reset gives the reset state again, up to the host's pins. -/
theorem resetEdgeClearsEverything : Obligations.ResetEdgeClearsEverything := by
  intro s hrst hread
  refine ⟨_, step_reset hread hrst, rfl, rfl, rfl, rfl, rfl, rfl, rfl, rfl, rfl, State.edgeMoves_reset hrst,
    fun hrst' hread' => ⟨_, step_reset (by simp [hread']) hrst', rfl⟩⟩

/-- An edge without reset that accepts nothing leaves the request register (R99). -/
theorem req_of_step {s t : State} (h : step s = .next t) (hrst : s.nextInput.rst = false)
    (hno : ¬ (s.phase = .idle ∧ s.reqReady = true ∧ s.nextInput.reqValid = true)) : t.req = s.req := by
  obtain ⟨hp, hvalid, hready, -⟩ | ⟨-, -, rfl⟩ | ⟨-, -, rfl⟩ | ⟨-, -, rfl⟩ | ⟨-, -, rfl⟩ | ⟨-, -, rfl⟩ :=
    (step_cases h).resolve_left (by simp [hrst])
  · exact absurd ⟨hp, hready, hvalid⟩ hno
  all_goals rfl

/-- Settles O33. -/
theorem acceptanceCopiesTheRequest : Obligations.AcceptanceCopiesTheRequest :=
  ⟨fun _ hquiet hp hready hvalid =>
    ⟨_, step_accept hquiet hp hready hvalid, rfl, rfl, rfl, rfl, rfl, rfl⟩, fun _ _ => req_of_step⟩

/-- Settles O34: completion decodes the command byte and runs its operation. -/
theorem completionRunsTheDecodedOperation : Obligations.CompletionRunsTheDecodedOperation := by
  intro s i hquiet hp hleft hdec
  rw [step_lastEdge hquiet hp hleft, State.complete, State.countEdge_req, State.noteOffer_req, State.dropInput_req, hdec]
  rfl

/-- An edge without reset that does not complete a request leaves the response register (R17). -/
theorem rsp_of_step {s t : State} (h : step s = .next t) (hrst : s.nextInput.rst = false)
    (hno : ¬ (s.phase = .pending ∧ s.edgesLeft ≤ 1)) : t.rsp = s.rsp := by
  obtain ⟨-, -, -, rfl⟩ | ⟨-, -, rfl⟩ | ⟨hp, hleft, -⟩ | ⟨-, -, rfl⟩ | ⟨-, -, rfl⟩ | ⟨-, -, rfl⟩ :=
    (step_cases h).resolve_left (by simp [hrst])
  · rfl
  · rfl
  · exact absurd ⟨hp, hleft⟩ hno
  all_goals rfl

/-- Settles O35. -/
theorem completionPresentsCodec : Obligations.CompletionPresentsCodec :=
  ⟨fun _ hquiet hp hleft => ⟨_, step_complete hquiet hp hleft.le, rfl, rfl, rfl, rfl, rfl⟩,
    fun _ hquiet hp hleft => ⟨_, step_count hquiet hp hleft, hp, rfl, rfl, rfl, rfl, rfl⟩, fun _ _ => rsp_of_step⟩

/-- Settles O36; the host's legal move has seen the block reset, so a read after the take is the fault of R19. -/
theorem takeFreesTheBlock : Obligations.TakeFreesTheBlock := by
  intro s hquiet hvalid htake
  obtain ⟨-, hrst, hwas, -⟩ := (hostQuiet_iff s).1 hquiet
  have hp : s.phase = .done := State.rspValid_iff.1 hvalid
  have hmove : s.edgeMoves s.nextInput = [.take] := by rw [State.edgeMoves_done hrst hp, if_pos htake]
  exact ⟨_, step_take hquiet hp htake, rfl, rfl, rfl, rfl, outputs_rsp_eq_none nofun, hmove,
    (readFault_whileNotValid _).2 ⟨hwas, rfl⟩, rfl⟩

/-- Settles O38: of the two causes of a refusal only the broken offer is left after the first reset. -/
theorem changedRequestIsRefused : Obligations.ChangedRequestIsRefused := by
  intro s hwas
  simp [step_refused, readFault_none, keepsOffer_eq_false, State.rspValid_iff, hwas]

/-- Before the first reset an edge that answers a next state is a reset without a read: every read faults, and no other move
of the host is quiet (R98). -/
theorem reset_of_step_beforeReset {s t : State} (hwas : s.wasReset = false) (h : step s = .next t) :
    s.nextInput.rst = true ∧ s.nextInput.readRsp = false ∧ t = s.dropInput.applyReset := by
  obtain ⟨hread, ⟨hrst, ht⟩ | ⟨-, hquiet, -⟩⟩ := step_next s t h
  · exact ⟨hrst, Bool.eq_false_iff.2 fun hr => readFault_ne_none hwas (hread hr), ht⟩
  · obtain ⟨-, -, hwas', -⟩ := (hostQuiet_iff s).1 hquiet
    rw [hwas] at hwas'; cases hwas'

/-- Settles O39. -/
theorem onlyResetLeavesPowerOn : Obligations.OnlyResetLeavesPowerOn := by
  refine fun s hwas => ⟨⟨fun ⟨t, ht⟩ => ?_, fun ⟨hrst, hread⟩ => ⟨_, step_reset (by simp [hread]) hrst⟩⟩, fun t ht => ?_⟩
  · obtain ⟨hrst, hread, -⟩ := reset_of_step_beforeReset hwas ht
    exact ⟨hrst, hread⟩
  · obtain ⟨-, -, rfl⟩ := reset_of_step_beforeReset hwas ht
    rfl

/-- Settles O41: where the ports show a response, it is the one in `rsp`. -/
theorem portsFollowTheRegisters : Obligations.PortsFollowTheRegisters := by
  intro s
  refine ⟨rfl, State.rspValid_iff, fun p hp => ?_⟩
  obtain rfl : s.rsp.pins = p := by
    rw [outputs_rsp] at hp
    split_ifs at hp
    exact Option.some.inj hp
  refine ⟨rfl, rfl, ?_, ?_⟩
  · change BitVec.ofBool s.rsp.verdict = 1#1 ↔ s.rsp.verdict = true
    cases s.rsp.verdict <;> decide
  · change s.rsp.status.code.toNat = _
    cases s.rsp.status <;> rfl

/-- Settles O54: an acceptance comes exactly where an idle block that is ready is offered a request. -/
theorem standingOfferIsTheUnacceptedRequest : Obligations.StandingOfferIsTheUnacceptedRequest := by
  intro s t h
  cases hrst : s.nextInput.rst with
  | true =>
    obtain rfl := eq_applyReset_of_step h hrst
    simp
  | false =>
    obtain ⟨hp, -, hready, rfl⟩ | ⟨hp, hno, rfl⟩ | ⟨hp, -, rfl⟩ | ⟨hp, -, rfl⟩ | ⟨hp, -, rfl⟩ | ⟨hp, -, rfl⟩ :=
      (step_cases h).resolve_left (by simp [hrst])
    · simp [hp, hready]
    · cases hvalid : s.nextInput.reqValid with
      | true =>
        have hready : s.reqReady = false := by simpa [hvalid] using hno
        simp [hvalid, hready]
      | false => simp [hvalid]
    all_goals cases hvalid : s.nextInput.reqValid <;> simp [hp, hvalid]

/-! ### Runs of edges -/

section
variable {s t u : State} {n : Nat}

/-- A run of one edge more begins with that edge. -/
theorem reaches_succ_iff : s.reaches (n + 1) u ↔ ∃ t, step s = .next t ∧ t.reaches n u := by
  unfold State.reaches
  rw [edges]
  cases step s <;> simp

/-- An edge after a run. -/
theorem State.reaches.snoc (h : s.reaches n t) (ht : step t = .next u) : s.reaches (n + 1) u := by
  induction n generalizing s with
  | zero =>
    obtain rfl := (reaches_zero s t).1 h
    exact (reaches_succ s u u 0 ht).2 rfl
  | succ n ih =>
    obtain ⟨v, hv, hrun⟩ := reaches_succ_iff.1 h
    exact (reaches_succ s v u (n + 1) hv).2 (ih hrun)

/-- Every run keeps the invariant. -/
theorem State.reaches.inv (h : s.reaches n t) (hs : s.Inv) : t.Inv := by
  induction n generalizing s with
  | zero => obtain rfl := (reaches_zero s t).1 h; exact hs
  | succ n ih =>
    obtain ⟨v, hv, hrun⟩ := reaches_succ_iff.1 h
    exact ih hrun (stepKeepsTheInvariant s v hs hv)

theorem State.quietFor.hostQuiet (h : s.quietFor (n + 1)) : s.hostQuiet = true :=
  h 0 n.succ_pos s ((reaches_zero s s).2 rfl)

/-- The moves after the first edge of a quiet run are quiet. -/
theorem State.quietFor.tail (h : s.quietFor (n + 1)) (hs : step s = .next t) : t.quietFor n :=
  fun j hj u hu => h (j + 1) (Nat.succ_lt_succ hj) u ((reaches_succ s t u j hs).2 hu)

theorem State.quietFor.mono {m : Nat} (h : s.quietFor n) (hle : m ≤ n) : s.quietFor m :=
  fun j hj => h j (hj.trans_le hle)

end

/-! ### The bounded response (R101, R103, R105) -/

section
variable {s : State}

/-- A pending request stays pending, with one edge less to go at each edge, until the last (R101). -/
theorem reaches_pending (hp : s.phase = .pending) {j : Nat} (hj : j < s.edgesLeft) (hquiet : s.quietFor j) :
    ∃ u, s.reaches j u ∧ u.phase = .pending ∧ u.req = s.req ∧ u.edgesLeft = s.edgesLeft - j := by
  induction j with
  | zero => exact ⟨s, (reaches_zero s s).2 rfl, hp, rfl, rfl⟩
  | succ j ih =>
    obtain ⟨u, hu, hup, hreq, hleft⟩ := ih (Nat.lt_of_succ_lt hj) (hquiet.mono j.le_succ)
    refine ⟨_, hu.snoc (step_count (hquiet j j.lt_succ_self u hu) hup (by omega)), hup, hreq, ?_⟩
    change u.edgesLeft - 1 = s.edgesLeft - (j + 1)
    omega

/-- A pending request is answered at the edge that its count of edges names (R101). -/
theorem reaches_done (hp : s.phase = .pending) (hpos : 1 ≤ s.edgesLeft) (hquiet : s.quietFor s.edgesLeft) :
    ∃ t, s.reaches s.edgesLeft t ∧ t.phase = .done ∧ t.rsp = codec s.req ∧ t.req = s.req := by
  obtain ⟨n, hn⟩ : ∃ n, s.edgesLeft = n + 1 := ⟨s.edgesLeft - 1, by omega⟩
  rw [hn] at hquiet ⊢
  obtain ⟨u, hu, hup, hreq, hleft⟩ := reaches_pending hp (by omega) (hquiet.mono n.le_succ)
  exact ⟨_, hu.snoc (step_complete (hquiet n n.lt_succ_self u hu) hup (by omega)), rfl, congrArg codec hreq, hreq⟩

/-- An accepted request is pending until the edge LATENCY after the acceptance and is answered at it (R101). -/
theorem reaches_of_accept (hs : s.Inv) (hp : s.phase = .idle) (hvalid : s.nextInput.reqValid = true)
    (hquiet : s.quietFor (1 + Config.latency)) :
    (∃ t, s.reaches (1 + Config.latency) t ∧ t.phase = .done ∧ t.rsp = codec s.nextInput.req ∧
      t.req = s.nextInput.req) ∧
    ∀ j < Config.latency, ∃ u, s.reaches (1 + j) u ∧ u.phase = .pending := by
  rw [Nat.add_comm] at hquiet
  have hready : s.reqReady = true := by rw [hs.reqReady_eq, hp]; rfl
  have hstep := step_accept hquiet.hostQuiet hp hready hvalid
  have hrest := hquiet.tail hstep
  constructor
  · obtain ⟨t, ht, hanswer⟩ := reaches_done (State.accept_phase _ _ _) (Nat.le_add_left 1 _) hrest
    refine ⟨t, ?_, hanswer⟩
    rw [Nat.add_comm]
    exact (reaches_succ _ _ _ _ hstep).2 ht
  · intro j hj
    obtain ⟨u, hu, hup, -⟩ := reaches_pending (State.accept_phase _ _ _) hj (hrest.mono hj.le)
    refine ⟨u, ?_, hup⟩
    rw [Nat.add_comm]
    exact (reaches_succ _ _ _ _ hstep).2 hu

end

/-- Settles O45, by induction on the edges counted in PENDING. -/
theorem responseComesAfterExactlyLatencyEdges : Obligations.ResponseComesAfterExactlyLatencyEdges := by
  refine ⟨fun s hs hp hvalid hquiet => ?_, fun s hquiet hp hwait => ?_⟩
  · obtain ⟨⟨t, ht, hdone, hrsp, hreq⟩, hpending⟩ := reaches_of_accept hs hp hvalid hquiet
    refine ⟨⟨t, ht, hdone, State.rspValid_iff.2 hdone, hrsp, hreq⟩, fun j hj => ?_⟩
    obtain ⟨u, hu, hup⟩ := hpending j hj
    exact ⟨u, hu, hup, State.rspValid_eq_false (by rw [hup]; decide)⟩
  · exact ⟨_, step_wait hquiet hp hwait, hp, rfl, State.rspValid_iff.2 hp, rfl, rfl⟩

/-- Only a reset or a take leads into IDLE (R18, R102). -/
theorem phase_ne_idle_of_step {s t : State} (h : step s = .next t) (hp : s.phase ≠ .idle) (hrst : s.nextInput.rst = false)
    (hno : ¬ (s.phase = .done ∧ s.nextInput.rspReady = true)) : t.phase ≠ .idle := by
  obtain hsame | ⟨hidle, -⟩ | ⟨-, ht, -⟩ | ⟨hdone, -, htake⟩ | ⟨-, hreset⟩ := step_phase h
  · rw [hsame]; exact hp
  · exact absurd hidle hp
  · rw [ht]; decide
  · exact absurd ⟨hdone, htake⟩ hno
  · rw [hrst] at hreset; cases hreset

/-- Settles O46: the block is ready only in IDLE, and is pending for LATENCY edges and then done. -/
theorem acceptancesAreLatencyPlusTwoApart : Obligations.AcceptancesAreLatencyPlusTwoApart := by
  refine ⟨fun s t hs hp h hrst hno => ?_, fun s hs hp hvalid hquiet j hj => ?_⟩
  · rw [(stepKeepsTheInvariant s t hs h).reqReady_eq]
    exact decide_eq_false (phase_ne_idle_of_step h hp hrst hno)
  · obtain ⟨u, hu, hne⟩ : ∃ u, s.reaches (1 + j) u ∧ u.phase ≠ .idle := by
      obtain ⟨⟨t, ht, hdone, -⟩, hpending⟩ := reaches_of_accept hs hp hvalid (hquiet.mono (Nat.le_succ _))
      obtain hlt | rfl := hj.lt_or_eq
      · obtain ⟨u, hu, hup⟩ := hpending j hlt
        exact ⟨u, hu, by rw [hup]; decide⟩
      · exact ⟨t, ht, by rw [hdone]; decide⟩
    exact ⟨u, hu, (hu.inv hs).reqReady_eq.trans (decide_eq_false hne)⟩

/-- Settles O49: the reset state is idle and keeps the invariant, so what is taken and answered from then on is what O47 and
O45 say of any idle state. -/
theorem reissuedRequestGetsTheSameResponse : Obligations.ReissuedRequestGetsTheSameResponse := by
  intro s hs _ hrst hread
  obtain ⟨hwas, -, -, -, hrsp, -⟩ := hs
  have hreset : s.dropInput.applyReset.Inv := State.applyReset_inv _
  refine ⟨_, step_reset (fun h => (readFault_none s).2 ⟨hwas, State.rspValid_iff.1 (hread h)⟩) hrst, rfl, rfl,
    State.edgeMoves_reset hrst, fun n => ?_, fun n u hu hp hvalid hreq hquiet => ?_⟩
  · obtain ⟨horder, -, hlen⟩ := responsesAnswerRequestsInOrder _ n hreset rfl
    exact ⟨horder, hlen⟩
  · obtain ⟨⟨v, hv, hdone, hcodec, -⟩, -⟩ := reaches_of_accept (hu.inv hreset) hp hvalid hquiet
    rw [hreq] at hcodec
    exact ⟨v, hv, hdone, hcodec, fun hd => hcodec.trans (hrsp hd).symm⟩

/-! ### The transaction-level model (R107) -/

section
variable {s t : State}

theorem State.abs_idle (h : s.phase = .idle) : s.abs = { phase := .idle, faults := [] } := by
  simp [State.abs, h]

theorem State.abs_pending (h : s.phase = .pending) : s.abs = { phase := .pending s.req, faults := [] } := by
  simp [State.abs, h]

theorem State.abs_done (h : s.phase = .done) : s.abs = { phase := .done s.rsp, faults := [] } := by
  simp [State.abs, h]

/-- The transaction-level state stands in the phase and the two registers. -/
theorem State.abs_congr (hphase : t.phase = s.phase) (hreq : t.req = s.req) (hrsp : t.rsp = s.rsp) : t.abs = s.abs := by
  unfold State.abs
  rw [hphase, hreq, hrsp]

/-- A transaction-level state that a cycle-level state stands for is idle exactly where that state is. -/
theorem State.abs_phase_eq_idle : s.abs.phase = .idle ↔ s.phase = .idle := by
  unfold State.abs
  cases s.phase <;> simp

/-- Complete is enabled exactly where the cycle-level state is PENDING. -/
theorem State.abs_enabled_complete : s.abs.enabled .complete = true ↔ s.phase = .pending := by
  rw [TState.enabled_complete]
  unfold State.abs
  cases s.phase <;> simp

/-- Reset is enabled in every phase (R95). -/
theorem TState.move_reset (t : TState) : t.move .reset = some { t with phase := .idle } := by
  obtain ⟨_ | _ | _, _⟩ := t <;> rfl

/-- Complete is enabled in PENDING and gives Codec of the request (R107). -/
theorem TState.move_complete {t : TState} {r : Request} (h : t.phase = .pending r) :
    t.move .complete = some { t with phase := .done (codec r) } := by
  simp [TState.move, h]

/-- A step makes the moves of `edgeMoves` between the two states it leads from and to (R107). -/
theorem abs_moves_edgeMoves (h : step s = .next t) : s.abs.moves (s.edgeMoves s.nextInput) = some t.abs := by
  obtain ⟨hm, ht⟩ | ⟨hm, hs, ht⟩ | ⟨hm, hs, ht, -, hrsp⟩ | ⟨hm, hs, ht⟩ | ⟨hm, hphase, hreq, hrsp⟩ := step_edgeMoves h <;>
    rw [hm]
  · rw [TState.moves_singleton, TState.move_reset, State.abs_idle ht]; rfl
  · rw [State.abs_idle hs, State.abs_pending ht]; rfl
  · rw [State.abs_pending hs, State.abs_done ht, hrsp]; rfl
  · rw [State.abs_done hs, State.abs_idle ht]; rfl
  · rw [TState.moves_nil, State.abs_congr hphase hreq hrsp]

/-- An edge makes at most one step (R107). -/
theorem edgeMoves_length_le (h : step s = .next t) : (s.edgeMoves s.nextInput).length ≤ 1 := by
  obtain ⟨hm, -⟩ | ⟨hm, -⟩ | ⟨hm, -⟩ | ⟨hm, -⟩ | ⟨hm, -⟩ := step_edgeMoves h <;> simp [hm]

/-- After the first reset a step that faults is a read outside DONE, which R107 records. -/
theorem abs_move_readRsp {f : Fault} (hs : s.Inv) (h : step s = .fault f) :
    s.abs.move .readRsp = some { s.abs with faults := [f] } := by
  obtain ⟨hwas, -⟩ := hs
  obtain ⟨-, hfault⟩ := (step_fault s f).1 h
  have hnot : s.phase ≠ .done := fun hp => by rw [(readFault_none s).2 ⟨hwas, hp⟩] at hfault; cases hfault
  obtain rfl : Fault.rspReadWhileNotValid = f :=
    Option.some.inj (((readFault_whileNotValid s).2 ⟨hwas, State.rspValid_eq_false hnot⟩).symm.trans hfault)
  cases hp : s.phase with
  | idle => rw [State.abs_idle hp]; rfl
  | pending => rw [State.abs_pending hp]; rfl
  | done => exact absurd hp hnot

end

/-- Settles O48, by the steps an edge can make. -/
theorem stepRefinesTheTransactionModel : Obligations.StepRefinesTheTransactionModel :=
  ⟨fun _ _ _ h => ⟨edgeMoves_length_le h, abs_moves_edgeMoves h⟩, fun _ _ => abs_move_readRsp,
    fun _ _ => TState.move_complete⟩

/-- The trace of a run leads from the transaction-level state of the first state to that of the last (R107). -/
theorem abs_moves_trace {s t : State} {n : Nat} (h : s.reaches n t) : s.abs.moves (s.trace n) = some t.abs := by
  induction n generalizing s with
  | zero => obtain rfl := (reaches_zero s t).1 h; rfl
  | succ n ih =>
    obtain ⟨u, hu, hrun⟩ := reaches_succ_iff.1 h
    rw [State.trace_next s u n hu, TState.moves_append, abs_moves_edgeMoves hu]
    exact ih hrun

/-- The trace of a run that faults leads to a state that has recorded the fault (R107). -/
theorem abs_moves_trace_fault {s : State} {n : Nat} {f : Fault} (hs : s.Inv) (h : edges n s = .fault f) :
    ∃ u, s.abs.moves (s.trace n) = some u ∧ u.faults = [f] := by
  induction n generalizing s with
  | zero => cases h
  | succ n ih =>
    rw [edges] at h
    cases hstep : step s with
    | next t =>
      rw [hstep] at h
      obtain ⟨u, hu, hf⟩ := ih (stepKeepsTheInvariant s t hs hstep) h
      rw [State.trace_next s t n hstep, TState.moves_append, abs_moves_edgeMoves hstep]
      exact ⟨u, hu, hf⟩
    | fault g =>
      rw [hstep] at h
      cases h
      rw [State.trace_fault s n f hstep, TState.moves_singleton, abs_move_readRsp hs hstep]
      exact ⟨_, rfl, rfl⟩
    | refused r => rw [hstep] at h; cases h

/-! ### Endless runs (R105, R107) -/

/-- An edge from a PENDING state resets, completes, or leaves a request that has one edge less to go (R101). -/
theorem step_pending_cases {s t : State} (h : step s = .next t) (hp : s.phase = .pending) :
    s.edgeMoves s.nextInput = [.reset] ∨ s.edgeMoves s.nextInput = [.complete] ∨
      (1 < s.edgesLeft ∧ t.phase = .pending ∧ t.edgesLeft = s.edgesLeft - 1) := by
  cases hrst : s.nextInput.rst with
  | true => exact .inl (State.edgeMoves_reset hrst)
  | false =>
    by_cases hleft : s.edgesLeft ≤ 1
    · exact .inr (.inl (by rw [State.edgeMoves_pending hrst hp, if_pos hleft]))
    · obtain ⟨-, hcases⟩ := step_next s t h
      obtain ⟨-, hquiet, -⟩ := hcases.resolve_left (by simp [hrst])
      rw [step_count hquiet hp (Nat.not_le.1 hleft)] at h
      cases h
      exact .inr (.inr ⟨Nat.not_le.1 hleft, hp, rfl⟩)

section
variable {s : Nat → State}

theorem IsRun.inv (hrun : IsRun s) (h0 : (s 0).Inv) (n : Nat) : (s n).Inv := by
  induction n with
  | zero => exact h0
  | succ n ih => exact stepKeepsTheInvariant _ _ ih (hrun n)

/-- A request with at most `m + 1` edges to go completes or is reset within that many edges (R105). -/
theorem IsRun.complete_or_reset (hrun : IsRun s) {m n : Nat} (hp : (s n).phase = .pending)
    (hleft : (s n).edgesLeft ≤ m + 1) :
    ∃ k, n ≤ k ∧ k < n + (m + 1) ∧
      ((s k).edgeMoves (s k).nextInput = [.complete] ∨ (s k).edgeMoves (s k).nextInput = [.reset]) := by
  induction m generalizing n with
  | zero =>
    obtain hm | hm | ⟨hlt, -⟩ := step_pending_cases (hrun n) hp
    · exact ⟨n, le_rfl, by omega, .inr hm⟩
    · exact ⟨n, le_rfl, by omega, .inl hm⟩
    · omega
  | succ m ih =>
    obtain hm | hm | ⟨-, hp', hleft'⟩ := step_pending_cases (hrun n) hp
    · exact ⟨n, le_rfl, by omega, .inr hm⟩
    · exact ⟨n, le_rfl, by omega, .inl hm⟩
    · obtain ⟨k, hk, hk', hm⟩ := ih hp' (by omega)
      exact ⟨k, by omega, by omega, hm⟩

/-- Within LATENCY edges of every PENDING state comes Complete or Reset (R105). -/
theorem IsRun.complete_or_reset_within_latency (hrun : IsRun s) (h0 : (s 0).Inv) {n : Nat} (hp : (s n).phase = .pending) :
    ∃ k, n ≤ k ∧ k < n + Config.latency ∧
      ((s k).edgeMoves (s k).nextInput = [.complete] ∨ (s k).edgeMoves (s k).nextInput = [.reset]) := by
  obtain ⟨-, -, hcount, -⟩ := hrun.inv h0 n
  exact hrun.complete_or_reset hp (hcount hp).2

/-- Where Complete stays enabled no reset comes, so the bounded wait ends with Complete (R107). -/
theorem IsRun.weaklyFair_complete (hrun : IsRun s) (h0 : (s 0).Inv) :
    WeaklyFair (fun n => (s n).abs) (fun n => (s n).edgeMoves (s n).nextInput) .complete := by
  intro n henabled
  have hpending (k : Nat) (hk : n ≤ k) : (s k).phase = .pending := State.abs_enabled_complete.1 (henabled k hk)
  obtain ⟨k, hk, -, hm | hm⟩ := hrun.complete_or_reset_within_latency h0 (hpending n le_rfl)
  · exact ⟨k, hk, by simp [hm]⟩
  · have hmove := abs_moves_edgeMoves (hrun k)
    rw [hm, TState.moves_singleton, TState.move_reset] at hmove
    have hidle : (s (k + 1)).phase = .idle := State.abs_phase_eq_idle.1 (by rw [← Option.some.inj hmove])
    rw [hpending (k + 1) (by omega)] at hidle
    cases hidle

end

/-- Settles O55: each edge makes its step, by induction over the run, and the count of edges bounds the wait. -/
theorem tracesMapToFairTransactionTraces : Obligations.TracesMapToFairTransactionTraces :=
  ⟨fun _ _ _ _ => abs_moves_trace, fun _ _ _ => abs_moves_trace_fault, fun _ h0 hrun =>
    ⟨fun n => ⟨edgeMoves_length_le (hrun n), abs_moves_edgeMoves (hrun n)⟩, hrun.weaklyFair_complete h0,
      fun _ => hrun.complete_or_reset_within_latency h0⟩⟩

/-! ### The end of a run (R107) -/

section
variable {t u : TState} {ms : List TMove}

/-- A run is final exactly if it stops in IDLE. -/
theorem TState.stopOf_eq_final (h : t.moves ms = some u) : t.stopOf ms = some .final ↔ u.phase = .idle := by
  simp [TState.stopOf, h, TState.final_iff]

/-- A run has a transaction outstanding exactly if it stops outside IDLE. -/
theorem TState.stopOf_eq_outstanding (h : t.moves ms = some u) :
    t.stopOf ms = some .outstanding ↔ u.phase ≠ .idle := by
  simp [TState.stopOf, h, TState.final_iff]

theorem TState.phase_ne_idle_iff (u : TState) :
    u.phase ≠ .idle ↔ (∃ r, u.phase = .pending r) ∨ ∃ p, u.phase = .done p := by
  cases u.phase <;> simp

/-- The phase is IDLE exactly where neither Complete nor Take is enabled. -/
theorem TState.phase_eq_idle_iff (u : TState) :
    u.phase = .idle ↔ u.enabled .complete = false ∧ u.enabled .take = false := by
  rw [← Bool.not_eq_true, ← Bool.not_eq_true, TState.enabled_complete, TState.enabled_take, ← not_or,
    ← TState.phase_ne_idle_iff, not_not]

end

section
variable {s : State}

/-- The trace of a run of edges is final exactly if the run stops in IDLE. -/
theorem stopOf_trace_eq_final {t : State} {n : Nat} (h : s.reaches n t) :
    s.abs.stopOf (s.trace n) = some .final ↔ t.phase = .idle := by
  rw [TState.stopOf_eq_final (abs_moves_trace h), State.abs_phase_eq_idle]

/-- Where no edge counts and the host has stopped for good, nothing changes. -/
theorem step_self (hwas : s.wasReset = true) (hp : s.phase ≠ .pending) (hinputs : s.inputs = []) (hoffer : s.offer = none) :
    step s = .next s := by
  have hinput : s.nextInput = EdgeInput.rest none := by simp [State.nextInput, hinputs, hoffer]
  have hquiet : s.hostQuiet = true := by
    rw [hostQuiet_iff, hinput, hoffer]
    exact ⟨nofun, rfl, hwas, rfl⟩
  have hself : s.dropInput.noteOffer s.nextInput = s := by
    rw [hinput]
    obtain ⟨_, _, _, _, _, _, _, _⟩ := s
    cases hinputs
    cases hoffer
    rfl
  cases hphase : s.phase with
  | idle => rw [step_idle hquiet hphase (by rw [hinput]; rfl), hself]
  | pending => exact absurd hphase hp
  | done => rw [step_wait hquiet hphase (by rw [hinput]; rfl), hself]

theorem State.drainsFor.quietFor {n : Nat} (h : s.drainsFor n) : s.quietFor n :=
  fun j hj t ht => (h j hj t ht).1

/-- A state in DONE is idle after the next edge of a host that goes on taking (R102). -/
theorem State.drainsFor.reaches_idle_of_done {t : State} {m n : Nat} (h : s.drainsFor n) (ht : s.reaches m t) (hm : m < n)
    (hp : t.phase = .done) : ∃ u, s.reaches (m + 1) u ∧ u.phase = .idle := by
  obtain ⟨hquiet, -, htake⟩ := h m hm t ht
  exact ⟨_, ht.snoc (step_take hquiet hp htake), rfl⟩

/-- A host that issues nothing more and goes on taking sees the block idle within LATENCY + 1 edges (R105). -/
theorem State.drainsFor.reaches_idle (hs : s.Inv) (h : s.drainsFor (Config.latency + 1)) :
    ∃ n t, n ≤ Config.latency + 1 ∧ s.reaches n t ∧ t.phase = .idle := by
  cases hp : s.phase with
  | idle => exact ⟨0, s, Nat.zero_le _, (reaches_zero s s).2 rfl, hp⟩
  | pending =>
    obtain ⟨-, -, hcount, -⟩ := hs
    obtain ⟨hpos, hmax⟩ := hcount hp
    obtain ⟨t, ht, hdone, -⟩ := reaches_done hp hpos (h.quietFor.mono (Nat.le_succ_of_le hmax))
    obtain ⟨u, hu, hidle⟩ := h.reaches_idle_of_done ht (Nat.lt_succ_of_le hmax) hdone
    exact ⟨_, u, Nat.succ_le_succ hmax, hu, hidle⟩
  | done =>
    obtain ⟨u, hu, hidle⟩ := h.reaches_idle_of_done ((reaches_zero s s).2 rfl) (Nat.succ_pos _) hp
    exact ⟨1, u, Nat.le_add_left 1 _, hu, hidle⟩

end

/-- Settles O56. -/
theorem runsEndOnlyIdle : Obligations.RunsEndOnlyIdle := by
  refine ⟨fun t u ms h => ⟨TState.stopOf_eq_final h, ?_, ?_⟩, fun s t n _ h => stopOf_trace_eq_final h,
    fun s ⟨hwas, _⟩ => step_self hwas, fun s hs h => ?_⟩
  · rw [TState.stopOf_eq_outstanding h, TState.phase_ne_idle_iff]
  · rw [TState.stopOf_eq_final h, TState.phase_eq_idle_iff]
  · obtain ⟨n, t, hn, ht, hidle⟩ := h.reaches_idle hs
    exact ⟨n, t, hn, ht, (stopOf_trace_eq_final ht).2 hidle⟩

end Sys2Proof.Machine
end
